-- ==== Sys2Proof/Word.lean ====
section
/-! DEFINITION. The word and byte types of the hash core (00_scope.md R5, R8, R10). -/

namespace Sys2Proof

/-- A 32-bit unsigned word (R8). Bit 0 is the least significant bit. `+` on words is R10's `add32`: the sum
modulo 2^32. `^^^`, `&&&`, `|||` and `~~~` are R9's XOR, AND, OR and NOT. -/
abbrev Word := BitVec 32

/-- An 8-bit unsigned byte (R8). -/
abbrev Byte := BitVec 8

/-- Eight words: the chaining value CV[0..7] (R22), the working registers A..H (R23), the constant IV (R6). -/
abbrev Words8 := Vector Word 8

/-- The sixty-eight words W[0..67] of the schedule file (R24). -/
abbrev Schedule := Vector Word 68

/-- A message block: 64 bytes (R5). Its length is in the type, so the contract violation of R120 (a block that is
not 64 bytes) cannot be written down (93_implementation_defined.md U10). -/
abbrev Block := Vector Byte 64

end Sys2Proof
end

