-- ==== Sys2Proof/Syntax.lean ====
section
/-! DEFINITION. The instructions of the hash core: one constructor of Instr for each of the twelve rows of
opcode_table.json, and the three encoded forms they come in (30_encoding.md R70, R76). -/

namespace Sys2Proof

/-- The micro-sequencer's phase, the hash core's program counter (R30, R73). All four 2-bit codes are used. -/
inductive Phase where
  | idle
  | expand
  | round
  | feed
  deriving DecidableEq, Repr

/-- What a CMD word can mean (R72). -/
inductive Command where
  | nop
  | start
  | clear
  | illegal (v : Word)
  deriving DecidableEq, Repr

/-- The instructions: four host transactions (HOSTTXN), four commands (CMD) and four phase codes (PHASE). -/
inductive Instr where
  /-- REG_RD (R196): read the register at byte offset `off`. The record's DATA is ignored (R71). -/
  | regRd (off : Word)
  /-- REG_WR (R197): write `v` to the register at byte offset `off`. -/
  | regWr (off v : Word)
  /-- MSG_RD (R198): read the message byte at address `a`. The record's DATA is ignored (R71). -/
  | msgRd (a : Word)
  /-- MSG_WR (R199): write `v[7:0]` to the message byte at address `a`; `v[31:8]` is ignored. -/
  | msgWr (a v : Word)
  /-- NOP (R191). -/
  | nop
  /-- START (R193). -/
  | start
  /-- CLEAR (R194). -/
  | clear
  /-- ILLEGAL (R192): any CMD word `v` other than 0, 1 and 2. -/
  | illegal (v : Word)
  /-- IDLE (R205), phase code 0: the core has no step. -/
  | idle
  /-- EXPAND (R126), phase code 1. -/
  | expand
  /-- ROUND (R151), phase code 2. -/
  | round
  /-- FEED (R173), phase code 3. -/
  | feed
  deriving DecidableEq, Repr

/-- The host transaction record HOSTTXN (R71): three fields, 66 bits in all. -/
structure HostTxn where
  kind : BitVec 2
  addr : Word
  data : Word
  deriving DecidableEq, Repr

/-- An encoded instruction: one of the three encoded forms, and no others (R70). -/
inductive Encoded where
  | hosttxn (t : HostTxn)
  | cmd (v : Word)
  | phase (code : BitVec 2)
  deriving DecidableEq, Repr

/-- Why the decoder rejects. -/
inductive Reject where
  /-- A REG_RD or REG_WR record whose ADDR is not a multiple of 4 (R71, R200). -/
  | misalignedOffset
  /-- A REG_RD or REG_WR record whose ADDR is at or above 0x1000 (R71, R200). -/
  | offsetOutOfRange
  /-- A bit string with a bit set outside its form's 2, 32 or 66 bits. -/
  | strayBits
  /-- A bit string longer than the longest form. -/
  | noSuchForm
  deriving DecidableEq, Repr

end Sys2Proof
end

