-- ==== Sys2Proof/WellFormed.lean ====
section
/-! DEFINITION. Which terms of Instr stand for an encoding of the spec (30_encoding.md R71, R72). -/

namespace Sys2Proof

/-- A register offset the spec gives a meaning: a multiple of 4 in 0x000 to 0xFFC (R56, R71). -/
def isRegOffset (off : Word) : Bool :=
  off.toNat % 4 == 0 && decide (off.toNat < 0x1000)

/-- A word that decodes to ILLEGAL: any but 0, 1 and 2 (R72, R192). -/
def isIllegalWord (v : Word) : Bool :=
  v != 0 && v != 1 && v != 2

/-- Well-formedness: a register transaction carries a legal offset, and ILLEGAL an illegal word. Every message
address and every data word is legal (R71). -/
def Instr.wf : Instr → Bool
  | .regRd off => isRegOffset off
  | .regWr off _ => isRegOffset off
  | .msgRd _ => true
  | .msgWr _ _ => true
  | .nop => true
  | .start => true
  | .clear => true
  | .illegal v => isIllegalWord v
  | .idle => true
  | .expand => true
  | .round => true
  | .feed => true

end Sys2Proof
end

