-- ==== Sys2Proof/Decode.lean ====
section
/-! DEFINITION. The decoder, total on every encoded form and on every bit string, and the encoder after it
(30_encoding.md R70 to R78). -/

namespace Sys2Proof

/-! ## Decoding the three forms -/

/-- R72, in its order: RSVD (bits 31:8) first, then OP (bits 7:0). -/
def decodeCmd (v : Word) : Command :=
  if v.extractLsb' 8 24 ≠ 0 then .illegal v
  else if v.extractLsb' 0 8 = 0x00 then .nop
  else if v.extractLsb' 0 8 = 0x01 then .start
  else if v.extractLsb' 0 8 = 0x02 then .clear
  else .illegal v

/-- The instruction a command stands for. -/
def Command.toInstr : Command → Instr
  | .nop => .nop
  | .start => .start
  | .clear => .clear
  | .illegal v => .illegal v

/-- R73: the phase a 2-bit code stands for. -/
def decodePhase (code : BitVec 2) : Phase :=
  if code = 0 then .idle
  else if code = 1 then .expand
  else if code = 2 then .round
  else .feed

/-- R73: the 2-bit code of a phase. -/
def Phase.code : Phase → BitVec 2
  | .idle => 0
  | .expand => 1
  | .round => 2
  | .feed => 3

/-- The instruction a phase selects. -/
def Phase.toInstr : Phase → Instr
  | .idle => .idle
  | .expand => .expand
  | .round => .round
  | .feed => .feed

/-- What makes a register offset illegal, if anything does (R71, R200). -/
def offsetProblem (off : Word) : Option Reject :=
  if off.toNat % 4 ≠ 0 then some .misalignedOffset
  else if 0x1000 ≤ off.toNat then some .offsetOutOfRange
  else none

/-- A register transaction, if its offset is legal (R71). -/
def withLegalOffset (off : Word) (i : Instr) : Except Reject Instr :=
  match offsetProblem off with
  | some r => .error r
  | none => .ok i

/-- R71: the KIND field selects the transaction. Every message address is legal. -/
def decodeTxn (t : HostTxn) : Except Reject Instr :=
  if t.kind = 0 then withLegalOffset t.addr (.regRd t.addr)
  else if t.kind = 1 then withLegalOffset t.addr (.regWr t.addr t.data)
  else if t.kind = 2 then .ok (.msgRd t.addr)
  else .ok (.msgWr t.addr t.data)

/-- The decoder. -/
def decode : Encoded → Except Reject Instr
  | .hosttxn t => decodeTxn t
  | .cmd v => .ok (decodeCmd v).toInstr
  | .phase code => .ok (decodePhase code).toInstr

/-! ## Bit strings

R71: as one bit string a record is KIND, ADDR, DATA, with KIND in bits 65:64, ADDR in 63:32 and DATA in 31:0. -/

/-- The record packed as 66 bits (R71). -/
def HostTxn.pack (t : HostTxn) : BitVec 66 :=
  t.kind ++ t.addr ++ t.data

/-- The record 66 bits stand for (R71). -/
def HostTxn.unpack (b : BitVec 66) : HostTxn where
  kind := b.extractLsb' 64 2
  addr := b.extractLsb' 32 32
  data := b.extractLsb' 0 32

/-- The encoded form a bit string of `nbits` bits with value `w` is. The length alone tells the form (R78: nothing
else changes how a record decodes): up to one byte a PHASE code, up to four bytes a CMD word, up to nine bytes a
HOSTTXN record. -/
def Encoded.ofBits (nbits w : Nat) : Except Reject Encoded :=
  if nbits ≤ 8 then
    if w < 2 ^ 2 then .ok (.phase (BitVec.ofNat 2 w)) else .error .strayBits
  else if nbits ≤ 32 then
    if w < 2 ^ 32 then .ok (.cmd (BitVec.ofNat 32 w)) else .error .strayBits
  else if nbits ≤ 72 then
    if w < 2 ^ 66 then .ok (.hosttxn (HostTxn.unpack (BitVec.ofNat 66 w))) else .error .strayBits
  else .error .noSuchForm

/-- The decoder on a bit string: total, rejecting by name. -/
def decodeBits (nbits w : Nat) : Except Reject Instr :=
  match Encoded.ofBits nbits w with
  | .ok e => decode e
  | .error r => .error r

/-- The host's question: which instruction the decoder reads from a word of `nbits` bits. -/
def decodeTableWord (nbits w : Nat) : Option Instr :=
  match decodeBits nbits w with
  | .ok i => some i
  | .error _ => none

/-! ## The encoder -/

/-- The encoding of an instruction (R71, R72, R73, R76). The DATA of a read record is written 0 (R71). -/
def encode : Instr → Encoded
  | .regRd off => .hosttxn ⟨0, off, 0⟩
  | .regWr off v => .hosttxn ⟨1, off, v⟩
  | .msgRd a => .hosttxn ⟨2, a, 0⟩
  | .msgWr a v => .hosttxn ⟨3, a, v⟩
  | .nop => .cmd 0x00000000
  | .start => .cmd 0x00000001
  | .clear => .cmd 0x00000002
  | .illegal v => .cmd v
  | .idle => .phase 0
  | .expand => .phase 1
  | .round => .phase 2
  | .feed => .phase 3

/-- How many bits an encoded form has (R71, R72, R73), in whole bytes. -/
def Encoded.nbits : Encoded → Nat
  | .hosttxn _ => 72
  | .cmd _ => 32
  | .phase _ => 8

/-- An encoded form as one number, bit 0 the least significant bit. -/
def Encoded.value : Encoded → Nat
  | .hosttxn t => t.pack.toNat
  | .cmd v => v.toNat
  | .phase code => code.toNat

/-- The same form with the bits the spec says are ignored written 0: the DATA of a read record (R71). -/
def Encoded.canonical : Encoded → Encoded
  | .hosttxn t => if t.kind = 0 ∨ t.kind = 2 then .hosttxn { t with data := 0 } else .hosttxn t
  | .cmd v => .cmd v
  | .phase code => .phase code

end Sys2Proof
end

