-- ==== Sys2Proof/Config.lean ====
section
/-! DEFINITION. The parameters an implementation fixes (00_scope.md R6, R7; 20_memory.md R60).

They are plain data carried by State and written by no step, so that a statement about every state is a statement
about every value of the parameters. Their default values are in Machine/Parameters.lean.

The values the spec leaves free at a reset event (R44, R260) are no constants of this file. Each reset turn of
State.turns carries its own draw of them, as plain data that nothing constrains (log 10). -/

namespace Sys2Proof

structure Config where
  /-- IV[0..7], loaded by START (R6, R171). -/
  iv : Words8
  /-- T_LO, the round constant of rounds 0 to 15 (R6, R140). -/
  tLo : Word
  /-- T_HI, the round constant of rounds 16 to 63 (R6, R140). -/
  tHi : Word
  /-- MSG_CAP, the capacity of the message memory in bytes (R7). -/
  msgCap : Nat
  /-- NINST, the number of independent hash-core copies (R7). Only Machine/Instances.lean reads it. -/
  ninst : Nat
  /-- REG_BASE, the platform's place for the register space. R60: "No rule of the model reads these parameters". -/
  regBase : Nat
  /-- MSG_BASE, the platform's place for the message memory. R60: "No rule of the model reads these parameters". -/
  msgBase : Nat
  deriving DecidableEq, Repr

/-- The bounds the spec puts on the parameters: 1 ≤ MSG_CAP ≤ 2^32 − 1 and NINST ≥ 1 (R7), and T_LO ≠ T_HI (R6). -/
abbrev Config.wf (c : Config) : Prop :=
  1 ≤ c.msgCap ∧ c.msgCap ≤ 2 ^ 32 - 1 ∧ 1 ≤ c.ninst ∧ c.tLo ≠ c.tHi

end Sys2Proof
end

