-- ==== Sys2Proof/Machine/Parameters.lean ====
section
/-! DEFINITION. The default values of the parameters (00_scope.md R6; the wrapper's from the examples of
95_test_vectors.md). Only State.reset and tests use them; no meaning does. -/

namespace Sys2Proof.Machine

/-- IV: the default R6 gives. PRESUMED: R6 marks it "from general knowledge, not in source" (log 5). -/
def defaultIV : Words8 :=
  #v[0x7380166F, 0x4914B2B9, 0x172442D7, 0xDA8A0600, 0xA96F30BC, 0x163138AA, 0xE38DEE4D, 0xB0FB0E4E]

/-- T_LO: the default R6 gives. PRESUMED (log 5). -/
def defaultTLo : Word := 0x79CC4519

/-- T_HI: the default R6 gives. PRESUMED (log 5). -/
def defaultTHi : Word := 0x7A879D8A

/-- The parameters State.reset starts with. DESIGN CHOICE: MSG_CAP = 4096 and NINST = 1, as the spec's examples
take them, and both base addresses 0 (log 4). -/
def defaultConfig : Config where
  iv := defaultIV
  tLo := defaultTLo
  tHi := defaultTHi
  msgCap := 4096
  ninst := 1
  regBase := 0
  msgBase := 0

end Sys2Proof.Machine
end

