-- ==== Sys2Proof/Machine/State.lean ====
section
/-! DEFINITION. The state of one hash core and of the outside world that drives it (10_state.md), the reasons a step
can stop, and the state after reset. -/

namespace Sys2Proof.Machine

/-- The message memory MSG (R27) as a list of (address, byte). Its canonical form is `Memory.wf` in Ops.lean:
addresses strictly rising, and no entry equal to what an unlisted address reads as. -/
abbrev Memory := List Host.Cell

/-- A sticky error flag of STATUS (R32). -/
inductive ErrFlag where
  | lenErr
  | cmdErr
  | wrErr
  deriving DecidableEq, Repr

/-- One line of a host program (R79, R80). Every pseudo-instruction but `poll` is a list of transactions. -/
inductive HostLine where
  /-- One host transaction, as a raw record. -/
  | txn (t : HostTxn)
  /-- `poll MASK, VAL` (R80): read STATUS until (result AND MASK) = VAL. -/
  | poll (mask val : Word)
  deriving DecidableEq, Repr

/-- The values a reset event draws (R44, R260): whatever CV, A..H, W and MSG hold after it. Nothing constrains
them (log 10). `msg` lists the drawn bytes; a byte it does not list is drawn as what an unlisted address reads as. -/
structure ResetDraw where
  cv : Words8
  regs : Words8
  w : Schedule
  msg : List Host.Cell
  deriving DecidableEq, Repr

/-- Whose turn a step is (R20, R57). -/
inductive Turn where
  | core
  | host
  | reset (draw : ResetDraw)
  deriving DecidableEq, Repr

/-- Why the machine stops. Both are raised by EXPAND alone, and both are unreachable: no state with the invariant of
R45 (Safety.lean) raises one. -/
inductive Fault where
  /-- Raised by EXPAND when LEN > MSG_CAP: the Padding Unit is "defined for every L in 0..MSG_CAP" (R104) and would
  read a byte that is not backed. SAFE: the model stops where the spec gives no value. -/
  | paddingBeyondCapacity
  /-- Raised by EXPAND when blk ≥ N(LEN): PadBlock(i) needs 0 ≤ i < N(LEN) (R103). SAFE: the model stops where the
  spec gives no value. -/
  | noSuchBlock
  deriving DecidableEq, Repr

/-- Why a step has no meaning. -/
inductive Refusal where
  /-- Raised by the dispatch of an instruction that has no meaning yet. SAFE: nothing can be proved of it. -/
  | notModelled (mnemonic : String)
  /-- Raised by the host's turn, REG_RD and REG_WR, for a record the spec gives no meaning: a misaligned or
  out-of-range register offset (R56, R200). SAFE: "The model gives it no meaning and no step". -/
  | badRecord (r : Reject)
  /-- Raised by EXPAND, ROUND, FEED and IDLE when asked for outside their phase: "It is enabled only when phase = …"
  (R126, R151, R173). No step asks. SAFE: the model stops where the spec gives no effect. -/
  | notEnabled (p : Phase)
  deriving DecidableEq, Repr

/-- The state. The first group is what the spec gives one hash core, the second its parameters, the third the
outside world, which the model holds as data so that one deterministic step covers every interleaving (R57). -/
structure State where
  /-- CV[0..7], the chaining-value accumulator (R22). -/
  cv : Words8
  /-- R[0..7], the working registers A..H (R23). -/
  regs : Words8
  /-- W[0..67], the schedule file (R24). -/
  w : Schedule
  /-- LEN, the message length in bytes (R26). -/
  len : Word
  /-- MSG, the message memory (R27). -/
  msg : Memory
  /-- blk, the number of blocks of the current job whose FEED has completed (R28). -/
  blk : Word
  /-- j, the index of the round the next ROUND performs (R29). -/
  j : BitVec 6
  /-- The micro-sequencer's phase (R30). -/
  phase : Phase
  /-- DONE (R31). -/
  done : Bool
  /-- LEN_ERR (R32, R231). -/
  lenErr : Bool
  /-- CMD_ERR (R32, R232). -/
  cmdErr : Bool
  /-- WR_ERR (R32, R233). -/
  wrErr : Bool
  /-- The parameters (R6, R7, R60). No step writes them. -/
  cfg : Config
  /-- The host's remaining program, the next line first (R195). The model's own field (log 7). -/
  program : List HostLine
  /-- The results read records have returned to the host, oldest first (R71). The model's own field (log 7). -/
  results : List Word
  /-- Whose turns the next steps are (R57). The model's own field (log 6). -/
  turns : List Turn
  deriving DecidableEq, Repr

/-- The machine right after reset (R44). LEN, blk, j, phase and the four flags have the values R44 gives. CV, A..H
and W are "unspecified" there and MSG too: DESIGN CHOICE zero in every word (log 2) and no byte listed (log 3), both
unsafe, so no statement rests on them. The parameters are the defaults (logs 4 and 5). The host has nothing to do yet
and no turn is listed (logs 6 and 7). -/
def State.reset : State where
  cv := Vector.replicate 8 0
  regs := Vector.replicate 8 0
  w := Vector.replicate 68 0
  len := 0
  msg := []
  blk := 0
  j := 0
  phase := .idle
  done := false
  lenErr := false
  cmdErr := false
  wrErr := false
  cfg := defaultConfig
  program := []
  results := []
  turns := []

end Sys2Proof.Machine
end

