-- ==== Sys2Proof/Machine/Operands.lean ====
section
/-! DEFINITION. Bit-field and byte-order operations on words (00_scope.md R8 to R12) and the operand forms: the
register map (10_state.md R34) and the data byte of a message write (20_memory.md R58). -/

namespace Sys2Proof.Machine

/-- ROTL(x, n), with the amount reduced modulo 32 (R11). -/
def rotl (x : Word) (n : Nat) : Word :=
  let s := n % 32
  if s = 0 then x else (x <<< s) ||| (x >>> (32 - s))

/-- BE32 (R12): the first byte becomes bits 31:24. -/
def be32 (b0 b1 b2 b3 : Byte) : Word :=
  b0 ++ b1 ++ b2 ++ b3

/-- BE32bytes (R12), the inverse of BE32: the byte of bits 31:24 first. -/
def be32Bytes (x : Word) : List Byte :=
  [x.extractLsb' 24 8, x.extractLsb' 16 8, x.extractLsb' 8 8, x.extractLsb' 0 8]

/-- BE64bytes (R12): the eight bytes of a 64-bit integer, most significant byte first. -/
def be64Bytes (v : BitVec 64) : List Byte :=
  [v.extractLsb' 56 8, v.extractLsb' 48 8, v.extractLsb' 40 8, v.extractLsb' 32 8,
   v.extractLsb' 24 8, v.extractLsb' 16 8, v.extractLsb' 8 8, v.extractLsb' 0 8]

/-- zext_32 of a byte (R8): what a MSG_RD returns (R58). -/
def zextByte (b : Byte) : Word :=
  b.setWidth 32

/-- v[7:0], the byte a MSG_WR stores (R58). -/
def dataByte (v : Word) : Byte :=
  v.extractLsb' 0 8

/-! ## The register map (R34) -/

/-- What a register offset names. -/
inductive Register where
  | cmd
  | status
  | len
  | blkcnt
  | digest (i : Fin 8)
  | reserved
  deriving DecidableEq, Repr

/-- R34: the register at a byte offset. An offset that holds no register is reserved (R42). -/
def registerAt (off : Word) : Register :=
  if off = 0x000 then .cmd
  else if off = 0x004 then .status
  else if off = 0x008 then .len
  else if off = 0x00C then .blkcnt
  else if h : 0x020 ≤ off.toNat ∧ off.toNat < 0x040 ∧ off.toNat % 4 = 0 then
    .digest ⟨(off.toNat - 0x020) / 4, by omega⟩
  else .reserved

/-- The offset of the CMD register (R34). -/
def cmdOffset : Word := 0x000

/-- The offset of the STATUS register (R34). -/
def statusOffset : Word := 0x004

/-- The offset of the LEN register (R34). -/
def lenOffset : Word := 0x008

/-- The offset of the BLKCNT register (R34). -/
def blkcntOffset : Word := 0x00C

/-- The offset of DIGESTi (R34). -/
def digestOffset (i : Fin 8) : Word :=
  BitVec.ofNat 32 (0x020 + 4 * i.val)

end Sys2Proof.Machine
end

