-- ==== Sys2Proof/Machine/Flags.lean ====
section
/-! DEFINITION. The status of the core: BUSY (R33), the STATUS word (R38), and `raise FLAG`, the one operation every
error goes through (R13, R230). There are no traps: raising a flag saves nothing and transfers no control (R237). -/

namespace Sys2Proof.Machine

/-- BUSY = (phase ≠ IDLE), with no storage of its own (R33). -/
def State.busy (s : State) : Bool :=
  s.phase != .idle

/-- `raise FLAG` (R13): set the sticky flag and change nothing else. -/
def State.raise (s : State) : ErrFlag → State
  | .lenErr => { s with lenErr := true }
  | .cmdErr => { s with cmdErr := true }
  | .wrErr => { s with wrErr := true }

/-- A one-bit field of STATUS at bit `n`. -/
def flagAt (b : Bool) (n : Nat) : Word :=
  (BitVec.ofBool b).setWidth 32 <<< n

/-- The value a read of STATUS returns (R38). -/
def State.statusWord (s : State) : Word :=
  s.j.setWidth 32 <<< 16 ||| s.phase.code.setWidth 32 <<< 8 ||| flagAt s.wrErr 4 ||| flagAt s.cmdErr 3
    ||| flagAt s.lenErr 2 ||| flagAt s.done 1 ||| flagAt s.busy 0

end Sys2Proof.Machine
end

