-- ==== Sys2Proof/Machine/Ops.lean ====
section
/-! DEFINITION. The operations over memory, registers and the outside world that the meanings share, and the reset
event (20_memory.md, 70_reset_and_hazards.md R260). -/

namespace Sys2Proof.Machine

/-! ## The message memory -/

/-- What an address reads as that no entry lists. DESIGN CHOICE (log 3): R53 leaves an unwritten byte unspecified.
Every contents of the memory is some list of entries, so a statement about every state does not rest on it. -/
def unlisted : Byte := 0

/-- MemRead(a, 1) (R13). -/
def Memory.read : Memory → Nat → Byte
  | [], _ => unlisted
  | (b, x) :: rest, a => if a = b then x else Memory.read rest a

/-- MemWrite(a, 1, v) (R13), keeping the canonical form: writing what an unlisted address reads as removes the
entry. -/
def Memory.write : Memory → Nat → Byte → Memory
  | [], a, v => if v = unlisted then [] else [(a, v)]
  | (b, x) :: rest, a, v =>
    if a < b then (if v = unlisted then (b, x) :: rest else (a, v) :: (b, x) :: rest)
    else if a = b then (if v = unlisted then rest else (a, v) :: rest)
    else (b, x) :: Memory.write rest a v

/-- The canonical form: addresses strictly rising, and no entry equal to what an unlisted address reads as. -/
abbrev Memory.wf (m : Memory) : Prop :=
  m.Pairwise (fun x y => x.1 < y.1) ∧ ∀ c ∈ m, c.2 ≠ unlisted

/-- Only the MSG_CAP backed bytes exist (R27, R50). -/
abbrev Memory.within (m : Memory) (cap : Nat) : Prop :=
  ∀ c ∈ m, c.1 < cap

/-- The memory a reset event's draw gives: the drawn bytes below the capacity, in canonical form. Where two entries
give one address, the first is the draw. -/
def Memory.ofDraw (cap : Nat) (cells : List Host.Cell) : Memory :=
  cells.foldr (fun c m => if c.1 < cap then m.write c.1 c.2 else m) []

/-! ## Host-visible effects -/

/-- A read record returns one 32-bit result to the host (R71), and changes nothing else (R59). -/
def State.answer (s : State) (v : Word) : State :=
  { s with results := s.results ++ [v] }

/-- A register's value on a read (R34, R196). CMD is write-only and reads 0, as a reserved offset does. -/
def State.readRegister (s : State) : Register → Word
  | .cmd => 0
  | .status => s.statusWord
  | .len => s.len
  | .blkcnt => s.blk
  | .digest i => s.cv[i]
  | .reserved => 0

/-- A write to LEN (R39): stored while IDLE, dropped with WR_ERR while BUSY. -/
def State.writeLen (s : State) (v : Word) : State :=
  if s.phase = .idle then { s with len := v } else s.raise .wrErr

/-- A host write of a message byte (R51). The range check comes before the BUSY check (R235). -/
def State.writeMessage (s : State) (a : Word) (b : Byte) : State :=
  if s.cfg.msgCap ≤ a.toNat then s
  else if s.phase ≠ .idle then s.raise .wrErr
  else { s with msg := s.msg.write a.toNat b }

/-- A host read of a message byte (R51): 0 at and above MSG_CAP, in any phase. -/
def State.readMessage (s : State) (a : Word) : Word :=
  if a.toNat < s.cfg.msgCap then zextByte (s.msg.read a.toNat) else 0

/-! ## Enabling -/

/-- A micro-operation is enabled only in the phase that selects it (R73, R126, R151, R173). Outside it there is no
such step, and it is refused by name (log 12). -/
def whenPhase (p : Phase) (s : State) (o : Host.Outcome State Fault Refusal) : Host.Outcome State Fault Refusal :=
  if s.phase = p then o else .refused (.notEnabled p)

/-- A register transaction has a meaning only at a legal offset (R200, log 11). -/
def atLegalOffset (off : Word) (o : Host.Outcome State Fault Refusal) : Host.Outcome State Fault Refusal :=
  match offsetProblem off with
  | some r => .refused (.badRecord r)
  | none => o

/-! ## Reset -/

/-- The reset event (R260), one atomic step: the control state takes its reset values, and CV, A..H, W and MSG take
the values of the draw. The parameters are no state of the core, and the host's program, its results and the coming
turns are outside the core: they stay (log 15). -/
def State.resetEvent (s : State) (d : ResetDraw) : State :=
  { s with
    phase := .idle, j := 0, blk := 0, done := false, lenErr := false, cmdErr := false, wrErr := false, len := 0,
    cv := d.cv, regs := d.regs, w := d.w, msg := Memory.ofDraw s.cfg.msgCap d.msg }

end Sys2Proof.Machine
end

