-- ==== Sys2Proof/Machine/Padding.lean ====
section
/-! DEFINITION. The Padding Unit (40_padding.md): a function of the message memory, LEN and a block index. It holds
no state, raises nothing and writes nothing (R104, R105). -/

namespace Sys2Proof.Machine

/-- bitLen = 8·L, exact (R75, R101). -/
def bitLength (l : Nat) : Nat := 8 * l

/-- k, the number of zero bits after the 1 bit: R101's formula in exact integer arithmetic. -/
def zeroBits (l : Nat) : Int :=
  (448 - ((bitLength l : Int) + 1) % 512 + 512) % 512

/-- Z(L), the number of zero bytes after 0x80 (R102): (k + 1)/8 − 1. -/
def zeroBytes (l : Nat) : Nat :=
  ((zeroBits l).toNat + 1) / 8 - 1

/-- N(L), the number of 512-bit blocks (R102). -/
def blockCount (l : Nat) : Nat :=
  (l + 8) / 64 + 1

/-- The length field: the original, unpadded bit length as eight big-endian bytes (R101). For a bit length of 2^64 or
more see log 22. DESIGN CHOICE (log 24): R126's corner case says that W[14] of the last block, bits 63:32 of this field,
is 0, and R75 and R101 give it bits 34:32 of the exact bit length, which are not all 0 for L ≥ 2^29. The model keeps
those bits. -/
def lengthField (l : Nat) : List Byte :=
  be64Bytes (BitVec.ofNat 64 (bitLength l))

/-- Pad(m) (R100): the message, 0x80, Z zero bytes, the length field. -/
def pad (m : List Byte) : List Byte :=
  m ++ [0x80] ++ List.replicate (zeroBytes m.length) 0x00 ++ lengthField m.length

/-- PB(p) (R103): the padded message's byte at offset p, without storing the padded message (R105). It has a meaning
for p < 64·N(L). -/
def paddedByte (m : Memory) (l p : Nat) : Byte :=
  if p < l then m.read p
  else if p = l then 0x80
  else if p < 64 * blockCount l - 8 then 0x00
  else (lengthField l).getD (p - (64 * blockCount l - 8)) 0

/-- PadBlock(i) (R103): the 64 bytes of block i, for i < N(L). -/
def padBlock (m : Memory) (l i : Nat) : Block :=
  Vector.ofFn fun k : Fin 64 => paddedByte m l (64 * i + k.val)

/-- The message MSG[0], ..., MSG[L−1] in address order (R54). -/
def messageBytes (m : Memory) (l : Nat) : List Byte :=
  (List.range l).map m.read

end Sys2Proof.Machine
end

