-- ==== Sys2Proof/Machine/Expander.lean ====
section
/-! DEFINITION. The Word Expander (41_expander.md): P1, the schedule, the mixing words, and EXPAND. -/

namespace Sys2Proof.Machine

/-- P1 (R122). -/
def p1 (x : Word) : Word :=
  x ^^^ rotl x 15 ^^^ rotl x 23

/-- W[0..15] (R124): the sixteen big-endian words of the block, in order. -/
def firstWords (b : Block) : List Word :=
  (List.finRange 16).map fun i =>
    be32 b[4 * i.val] b[4 * i.val + 1] b[4 * i.val + 2] b[4 * i.val + 3]

/-- The next word of the extension array, at index i = the number of words computed so far (R123). -/
def nextWord (ws : List Word) : Word :=
  let i := ws.length
  let at' (k : Nat) : Word := ws.getD (i - k) 0
  p1 (at' 16 ^^^ at' 9 ^^^ rotl (at' 3) 15) ^^^ rotl (at' 13) 7 ^^^ at' 6

/-- `n` more words, in increasing index order (R123, R267 (a)). -/
def extendWords : Nat → List Word → List Word
  | 0, ws => ws
  | n + 1, ws => extendWords n (ws ++ [nextWord ws])

theorem length_extendWords (n : Nat) (ws : List Word) : (extendWords n ws).length = ws.length + n := by
  induction n generalizing ws with
  | zero => rfl
  | succ n ih => simp [extendWords, ih]; omega

/-- The extension array W[0..67] of a block: sixteen words copied, fifty-two derived (R123, R124). -/
def expandBlock (b : Block) : Schedule :=
  ⟨⟨extendWords 52 (firstWords b)⟩, by simp [length_extendWords, firstWords]⟩

/-- W1[j] = W[j] XOR W[j+4] (R125), evaluated from the stored W (R25). -/
def mixWord (w : Schedule) (j : BitVec 6) : Word :=
  w[j.toNat]'(by omega) ^^^ w[j.toNat + 4]'(by omega)

/-- EXPAND (R126): expand the current block, load A..H from CV, clear j and go to ROUND, all in one step. Outside
the Padding Unit's domain it faults (R103, R104, log 13). -/
def execExpand (s : State) : Host.Outcome State Fault Refusal :=
  whenPhase .expand s <|
    if s.cfg.msgCap < s.len.toNat then .fault .paddingBeyondCapacity
    else if blockCount s.len.toNat ≤ s.blk.toNat then .fault .noSuchBlock
    else .next { s with
      w := expandBlock (padBlock s.msg s.len.toNat s.blk.toNat), regs := s.cv, j := 0, phase := .round }

end Sys2Proof.Machine
end

