-- ==== Sys2Proof/Machine/Compressor.lean ====
section
/-! DEFINITION. The Compressor (42_compressor.md): the round constants, the boolean selectors, P0, the round function
and ROUND. -/

namespace Sys2Proof.Machine

/-- T(j) (R140). -/
def roundConstant (c : Config) (j : BitVec 6) : Word :=
  if j.toNat < 16 then c.tLo else c.tHi

/-- FF(x, y, z, j) (R142). -/
def ff (x y z : Word) (j : BitVec 6) : Word :=
  if j.toNat < 16 then x ^^^ y ^^^ z else (x &&& y) ||| (x &&& z) ||| (y &&& z)

/-- GG(x, y, z, j) (R142). -/
def gg (x y z : Word) (j : BitVec 6) : Word :=
  if j.toNat < 16 then x ^^^ y ^^^ z else (x &&& y) ||| (~~~x &&& z)

/-- P0 (R143). -/
def p0 (x : Word) : Word :=
  x ^^^ rotl x 9 ^^^ rotl x 17

/-- SS1 (R145), with R141's rotated round constant. -/
def ss1 (c : Config) (r : Words8) (j : BitVec 6) : Word :=
  rotl (rotl r[0] 12 + r[4] + rotl (roundConstant c j) j.toNat) 7

/-- SS2 (R146). -/
def ss2 (c : Config) (r : Words8) (j : BitVec 6) : Word :=
  ss1 c r j ^^^ rotl r[0] 12

/-- TT1 (R147): FF, D, SS2 and the mixing word W1[j]. -/
def tt1 (c : Config) (w : Schedule) (r : Words8) (j : BitVec 6) : Word :=
  ff r[0] r[1] r[2] j + r[3] + ss2 c r j + mixWord w j

/-- TT2 (R148): GG, H, SS1 and the extension word W[j]. -/
def tt2 (c : Config) (w : Schedule) (r : Words8) (j : BitVec 6) : Word :=
  gg r[4] r[5] r[6] j + r[7] + ss1 c r j + w[j.toNat]'(by omega)

/-- The simultaneous register update of a round (R150): every right-hand side reads the pre-round A..H. -/
def roundStep (c : Config) (w : Schedule) (j : BitVec 6) (r : Words8) : Words8 :=
  #v[tt1 c w r j, r[0], rotl r[1] 9, r[2], p0 (tt2 c w r j), r[4], rotl r[5] 19, r[6]]

/-- The first `n` rounds, j = 0, ..., n − 1 in order (R152). -/
def rounds (c : Config) (w : Schedule) : Nat → Words8 → Words8
  | 0, r => r
  | n + 1, r => roundStep c w (BitVec.ofNat 6 n) (rounds c w n r)

/-- ROUND (R151): one round of the compression function. After round 63 j stays 63 and the phase becomes FEED. -/
def execRound (s : State) : Host.Outcome State Fault Refusal :=
  whenPhase .round s <|
    let r := roundStep s.cfg s.w s.j s.regs
    if s.j = 63 then .next { s with regs := r, phase := .feed }
    else .next { s with regs := r, j := s.j + 1 }

end Sys2Proof.Machine
end

