-- ==== Sys2Proof/Machine/Accumulator.lean ====
section
/-! DEFINITION. The chaining-value accumulator (43_accumulator.md): the feed-forward, FEED, and the whole-message
function and digest the hardware computes. -/

namespace Sys2Proof.Machine

/-- The feed-forward CV'[i] = R[i] XOR CV[i] (R172). -/
def feedForward (r cv : Words8) : Words8 :=
  Vector.ofFn fun i : Fin 8 => r[i] ^^^ cv[i]

/-- FEED (R173): fold the working registers into CV, count the block, and go on to the next block or finish. -/
def execFeed (s : State) : Host.Outcome State Fault Refusal :=
  whenPhase .feed s <|
    let cv := feedForward s.regs s.cv
    let blk := s.blk + 1
    if blk.toNat = blockCount s.len.toNat then
      .next { s with cv := cv, blk := blk, phase := .idle, done := true }
    else .next { s with cv := cv, blk := blk, phase := .expand }

/-! ## The functions a job computes -/

/-- Compress(CV, b) (R152, R176): EXPAND, 64 ROUNDs and FEED of one block, as a function. -/
def compress (c : Config) (cv : Words8) (b : Block) : Words8 :=
  feedForward (rounds c (expandBlock b) 64 cv) cv

/-- The chaining value after the first `n` padded blocks: R176's fold, from IV, strictly in index order. -/
def chainAfter (c : Config) (m : Memory) (l n : Nat) : Words8 :=
  ((List.range n).map (padBlock m l)).foldl (compress c) c.iv

/-- The chaining value of the whole message MSG[0..L−1] (R176). -/
def messageHash (c : Config) (m : Memory) (l : Nat) : Words8 :=
  chainAfter c m l (blockCount l)

/-- The digest as 32 bytes: the eight words in order, each big-endian (R174). -/
def digestBytes (cv : Words8) : List Byte :=
  cv.toList.flatMap be32Bytes

end Sys2Proof.Machine
end

