-- ==== Sys2Proof/Machine/Commands.lean ====
section
/-! DEFINITION. The commands a REG_WR to CMD performs (44_control.md R190 to R194). -/

namespace Sys2Proof.Machine

/-- NOP (R191): no effect, in every phase. -/
def execNop (s : State) : Host.Outcome State Fault Refusal :=
  .next s

/-- ILLEGAL (R192): CMD_ERR is raised and nothing else changes. The illegal value is not kept (R232). -/
def execIllegal (_v : Word) (s : State) : Host.Outcome State Fault Refusal :=
  .next (s.raise .cmdErr)

/-- START (R193). While BUSY it is not accepted: CMD_ERR. An accepted START clears DONE and LEN_ERR, and then either
raises LEN_ERR (LEN > MSG_CAP) or begins a job. -/
def execStart (s : State) : Host.Outcome State Fault Refusal :=
  if s.phase ≠ .idle then .next (s.raise .cmdErr)
  else
    let s₁ := { s with done := false, lenErr := false }
    if s.cfg.msgCap < s.len.toNat then .next (s₁.raise .lenErr)
    else .next { s₁ with cv := s.cfg.iv, blk := 0, j := 0, phase := .expand }

/-- CLEAR (R194): abort any job and clear all four flags. CV, A..H, W, LEN and MSG stay. -/
def execClear (s : State) : Host.Outcome State Fault Refusal :=
  .next { s with
    phase := .idle, j := 0, blk := 0, done := false, lenErr := false, cmdErr := false, wrErr := false }

/-- Command dispatch (R190): perform decodeCmd(v). The value v is not stored. -/
def performCmd (v : Word) (s : State) : Host.Outcome State Fault Refusal :=
  match decodeCmd v with
  | .nop => execNop s
  | .start => execStart s
  | .clear => execClear s
  | .illegal u => execIllegal u s

end Sys2Proof.Machine
end

