-- ==== Sys2Proof/Machine/HostPort.lean ====
section
/-! DEFINITION. The host transactions (44_control.md R196 to R200). -/

namespace Sys2Proof.Machine

/-- REG_RD (R196): the host gets the register's value, and nothing else changes. -/
def execRegRd (off : Word) (s : State) : Host.Outcome State Fault Refusal :=
  atLegalOffset off (.next (s.answer (s.readRegister (registerAt off))))

/-- REG_WR (R197): a command at CMD, the length at LEN, and no effect at a read-only or reserved offset (R36). -/
def execRegWr (off v : Word) (s : State) : Host.Outcome State Fault Refusal :=
  atLegalOffset off <|
    match registerAt off with
    | .cmd => performCmd v s
    | .len => .next (s.writeLen v)
    | .status => .next s
    | .blkcnt => .next s
    | .digest _ => .next s
    | .reserved => .next s

/-- MSG_RD (R198): the host gets the byte, zero-extended, or 0 at and above MSG_CAP. -/
def execMsgRd (a : Word) (s : State) : Host.Outcome State Fault Refusal :=
  .next (s.answer (s.readMessage a))

/-- MSG_WR (R199): the byte v[7:0] is written, or dropped (R51). -/
def execMsgWr (a v : Word) (s : State) : Host.Outcome State Fault Refusal :=
  .next (s.writeMessage a (dataByte v))

end Sys2Proof.Machine
end

