-- ==== Sys2Proof/Machine/Sequencer.lean ====
section
/-! DEFINITION. The phase code that is no micro-operation (44_control.md R205). EXPAND, ROUND and FEED stand with the
units they drive: Expander.lean, Compressor.lean, Accumulator.lean. -/

namespace Sys2Proof.Machine

/-- IDLE (R73, R205): "the core has no step. The core is quiescent, not stuck". A turn given to an idle core changes
nothing (log 9). -/
def execIdle (s : State) : Host.Outcome State Fault Refusal :=
  whenPhase .idle s (.next s)

end Sys2Proof.Machine
end

