-- ==== Sys2Proof/Machine/Dispatch.lean ====
section
/-! DEFINITION. The dispatch: one arm per instruction. -/

namespace Sys2Proof.Machine

def exec (i : Instr) (s : State) : Host.Outcome State Fault Refusal :=
  match i with
  | .regRd off => Sys2Proof.Machine.execRegRd off s
  | .regWr off v => Sys2Proof.Machine.execRegWr off v s
  | .msgRd a => Sys2Proof.Machine.execMsgRd a s
  | .msgWr a v => Sys2Proof.Machine.execMsgWr a v s
  | .nop => Sys2Proof.Machine.execNop s
  | .start => Sys2Proof.Machine.execStart s
  | .clear => Sys2Proof.Machine.execClear s
  | .illegal v => Sys2Proof.Machine.execIllegal v s
  | .idle => Sys2Proof.Machine.execIdle s
  | .expand => Sys2Proof.Machine.execExpand s
  | .round => Sys2Proof.Machine.execRound s
  | .feed => Sys2Proof.Machine.execFeed s

end Sys2Proof.Machine
end

