-- ==== Sys2Proof/Machine/Agents.lean ====
section
/-! DEFINITION. The agents' turns (10_state.md R20, 20_memory.md R57): what a step of the core, of the host and a
reset is, whose turn is next, and how the host loads a program (30_encoding.md R79, R80). -/

namespace Sys2Proof.Machine

/-- The core's turn (R205): the micro-operation the phase selects. -/
def coreTurn (s : State) : Host.Outcome State Fault Refusal :=
  exec s.phase.toInstr s

/-- One host transaction: decode the record and perform it. A record with no meaning is refused (R200). -/
def performTxn (t : HostTxn) (s : State) : Host.Outcome State Fault Refusal :=
  match decode (.hosttxn t) with
  | .ok i => exec i s
  | .error r => .refused (.badRecord r)

/-- The host's turn (R195): the next line of its program. `poll` reads STATUS and stays the next line until
(result AND MASK) = VAL; the result kept is the last read's (R80, log 8). A host with nothing left to do issues
nothing. -/
def hostTurn (s : State) : Host.Outcome State Fault Refusal :=
  match s.program with
  | [] => .next s
  | .txn t :: rest => performTxn t { s with program := rest }
  | .poll mask val :: rest =>
    if s.statusWord &&& mask = val then exec (.regRd statusOffset) { s with program := rest } else .next s

/-- Whose turn the next step is (R57). The listed turns come first, in their order. When none is listed it is a busy
core's, and otherwise the host's, which goes on with its program (log 6). -/
def State.turnNow (s : State) : Turn :=
  match s.turns with
  | t :: _ => t
  | [] => if s.phase = .idle then .host else .core

/-- The next step (R57): the turn that is due, taken off the list of turns. -/
def nextTurn (s : State) : Host.Outcome State Fault Refusal :=
  let u : State := { s with turns := s.turns.tail }
  match s.turnNow with
  | .core => coreTurn u
  | .host => hostTurn u
  | .reset d => .next (u.resetEvent d)

/-- Place an instruction so that the very next step runs it (log 14): a PHASE code in the phase register with the
turn the core's; a CMD word as a REG_WR to CMD, and a HOSTTXN record as it is, as the next line of the host's program
with the turn the host's. -/
def placeWord (s : State) (nbits w : Nat) : State :=
  if nbits ≤ 8 then { s with phase := decodePhase (BitVec.ofNat 2 w), turns := .core :: s.turns }
  else
    let t : HostTxn :=
      if nbits ≤ 32 then ⟨1, cmdOffset, BitVec.ofNat 32 w⟩ else HostTxn.unpack (BitVec.ofNat 66 w)
    { s with program := .txn t :: s.program, turns := .host :: s.turns }

end Sys2Proof.Machine
end

