-- ==== Sys2Proof/Machine/Step.lean ====
section
/-! DEFINITION. One step of the machine, and how an instruction is placed for it. -/

namespace Sys2Proof.Machine

/-- One step: the next turn of the interleaving (R57). -/
def step : State → Host.Outcome State Fault Refusal := nextTurn

/-- The state with the instruction of `nbits` bits and value `w` placed where the next step takes it from. -/
def State.withFetchWord (s : State) (nbits w : Nat) : State := placeWord s nbits w

end Sys2Proof.Machine
end

