-- ==== Sys2Proof/Machine/Executions.lean ====
section
/-! DEFINITION. Infinite executions (20_memory.md R57) and their fairness (70_reset_and_hazards.md R271). State lists
finitely many turns and host lines. The outside world may add to both lists before any step, so that an endless
sequence of host transactions, core steps and resets, in any order, is an execution too (log 20). -/

namespace Sys2Proof.Machine

/-- One step of an interleaving (R57): of the core, of the host with one record, or a reset event. -/
inductive Event where
  | core
  | host (t : HostTxn)
  | reset (draw : ResetDraw)
  deriving DecidableEq, Repr

/-- What an event does to a hash core. -/
def Event.perform (e : Event) (s : State) : Host.Outcome State Fault Refusal :=
  match e with
  | .core => coreTurn s
  | .host t => performTxn t s
  | .reset d => .next (s.resetEvent d)

/-- What the outside world adds to its lists before a step. -/
structure Supply where
  turns : List Turn
  program : List HostLine
  deriving DecidableEq, Repr

/-- The state after the outside world has added to its lists; the hash core is as it was. -/
def State.supplied (s : State) (i : Supply) : State :=
  { s with turns := s.turns ++ i.turns, program := s.program ++ i.program }

/-- What makes a step happen in which one event is performed, where no turn and no line is listed yet. -/
def Event.supply : Event → Supply
  | .core => ⟨[.core], []⟩
  | .host t => ⟨[.host], [.txn t]⟩
  | .reset d => ⟨[.reset d], []⟩

/-- The step from `s` is one the spec gives. A core turn in IDLE and a host turn with nothing to issue, in which the
model's step changes nothing (log 9), are no steps of an interleaving (R57, R205, R195). -/
def State.Moves (s : State) : Prop :=
  (s.turnNow = .core → s.phase ≠ .idle) ∧ (s.turnNow = .host → s.program ≠ [])

/-- An infinite execution (R57): endlessly many steps of the core, the host and reset, before each of which the outside
world may add to its lists. -/
structure Execution where
  /-- The state before step `n`. -/
  state : Nat → State
  /-- What the outside world adds before step `n`. -/
  supply : Nat → Supply
  /-- Each state is what the step before it answers. -/
  next : ∀ n, step ((state n).supplied (supply n)) = .next (state (n + 1))
  /-- Each step is one the spec gives. -/
  moves : ∀ n, ((state n).supplied (supply n)).Moves

/-- The state step `n` is taken from. -/
def Execution.before (x : Execution) (n : Nat) : State :=
  (x.state n).supplied (x.supply n)

/-- Step `n` is the core's. -/
def Execution.coreAt (x : Execution) (n : Nat) : Bool :=
  (x.before n).turnNow == .core

/-- Weak fairness (R271): if the core is busy from some point on, it takes infinitely many steps. -/
def Execution.Fair (x : Execution) : Prop :=
  ∀ n, (∀ m, n ≤ m → (x.state m).phase ≠ .idle) → ∀ k, ∃ m, k ≤ m ∧ x.coreAt m = true

/-- The step from `s` is one that ends a job without DONE (R208): a reset, or the host's write of CLEAR to CMD. -/
def State.Aborts (s : State) : Prop :=
  (∃ d, s.turnNow = .reset d) ∨
    s.turnNow = .host ∧ ∃ t lines, s.program = .txn t :: lines ∧ decode (.hosttxn t) = .ok (.regWr cmdOffset 0x00000002)

/-- How many of the first `n` steps are the core's. -/
def Execution.coreSteps (x : Execution) (n : Nat) : Nat :=
  ((List.range n).filter x.coreAt).length

end Sys2Proof.Machine
end

