-- ==== Sys2Proof/Machine/HostProgram.lean ====
section
/-! DEFINITION. The host-program lines and pseudo-instructions (30_encoding.md R79, R80), as the records they expand
to. -/

namespace Sys2Proof.Machine

/-- `rd OFF` (R79). -/
def lineRd (off : Word) : HostLine := .txn ⟨0, off, 0⟩

/-- `wr OFF, DATA` (R79). -/
def lineWr (off data : Word) : HostLine := .txn ⟨1, off, data⟩

/-- `rdb ADDR` (R79). -/
def lineRdb (addr : Word) : HostLine := .txn ⟨2, addr, 0⟩

/-- `wrb ADDR, BYTE` (R79). -/
def lineWrb (addr byte : Word) : HostLine := .txn ⟨3, addr, byte⟩

/-- The DATA word of a command name (R79). -/
def cmdWord : Command → Word
  | .nop => 0x00000000
  | .start => 0x00000001
  | .clear => 0x00000002
  | .illegal v => v

/-- `cmd NAME` (R80). -/
def pseudoCmd (c : Command) : List HostLine := [lineWr cmdOffset (cmdWord c)]

/-- `setlen n` (R80). -/
def pseudoSetlen (n : Word) : List HostLine := [lineWr lenOffset n]

/-- `load a, "s"` (R80): one MSG_WR for each byte, at a, a + 1, ... DESIGN CHOICE (log 23): a load that runs past
address 2^32 − 1, where a + k has no 32-bit ADDR (R10, R71) and the spec says nothing, goes on at address 0. -/
def pseudoLoad (a : Word) (bytes : List Byte) : List HostLine :=
  (List.range bytes.length).map fun k => lineWrb (a + BitVec.ofNat 32 k) ((bytes.getD k 0).setWidth 32)

/-- `poll MASK, VAL` (R80): the only loop. -/
def pseudoPoll (mask val : Word) : List HostLine := [.poll mask val]

/-- `wait` (R80): stop when BUSY = 0. -/
def pseudoWait : List HostLine := pseudoPoll 0x00000001 0x00000000

/-- `digest` (R80): read DIGEST0 to DIGEST7, in that order. -/
def pseudoDigest : List HostLine := (List.finRange 8).map fun i => lineRd (digestOffset i)

end Sys2Proof.Machine
end

