-- ==== Sys2Proof/Machine/Instances.lean ====
section
/-! DEFINITION. Several hash cores side by side (00_scope.md R7, 60_exceptions.md R240): NINST of them, each with all
of the state and its own host port, and they share nothing. -/

namespace Sys2Proof.Machine

/-- A system with the parameters `c`: NINST hash cores, each with its own copy of every piece of state (R7, R240). -/
abbrev System (c : Config) := Vector State c.ninst

/-- The parameters are within the spec's bounds, NINST ≥ 1 among them (R7), and every core has them. -/
abbrev System.wf {c : Config} (sys : System c) : Prop :=
  c.wf ∧ ∀ k : Fin c.ninst, sys[k].cfg = c

/-- A step of the whole system is a step of one hash core, core `k`; the others do not move. -/
def System.stepAt {c : Config} (sys : System c) (k : Fin c.ninst) : Host.Outcome (System c) Fault Refusal :=
  match step sys[k] with
  | .next t => .next (sys.set k t)
  | .fault r => .fault r
  | .refused r => .refused r

/-- A system after reset: NINST copies of one hash core's reset state, with the system's parameters. -/
def System.reset (c : Config) : System c :=
  Vector.replicate c.ninst { State.reset with cfg := c }

end Sys2Proof.Machine
end

