-- ==== Sys2Proof/Safety.lean ====
section
/-! DEFINITION. What holds of every state a hash core reaches (10_state.md R45), and what its datapath holds while a
job runs (43_accumulator.md R176). -/

namespace Sys2Proof.Machine

/-- The invariant of R45, with the parameters' bounds (R6, R7) and the message memory's canonical form. R45 (a) is in
the types of `cv`, `regs` and `w`; R45 (e) is a statement about steps. -/
structure State.Inv (s : State) : Prop where
  /-- The parameters are within the spec's bounds (R6, R7). -/
  cfg_wf : s.cfg.wf
  /-- The message memory is in canonical form. -/
  msg_wf : s.msg.wf
  /-- Only backed bytes are listed (R27). -/
  msg_within : s.msg.within s.cfg.msgCap
  /-- START's length check (R193) holds for the whole job (R65). -/
  len_le : s.phase ≠ .idle → s.len.toNat ≤ s.cfg.msgCap
  /-- R45 (b): phase = IDLE or blk < N(LEN). -/
  blk_lt : s.phase ≠ .idle → s.blk.toNat < blockCount s.len.toNat
  /-- R45 (c): phase = FEED implies j = 63. -/
  feed_j : s.phase = .feed → s.j = 63
  /-- R45 (d): DONE = 1 implies phase = IDLE. -/
  done_idle : s.done = true → s.phase = .idle

/-- What the datapath holds while a job runs: CV is the chaining value of the blocks already fed, W the current
block's schedule, and A..H that block's working registers after the rounds already performed (R152, R176). -/
structure State.OnCourse (s : State) : Prop where
  /-- While BUSY, CV is the fold of Compress over blocks 0 to blk − 1 (R176). -/
  chain : s.phase ≠ .idle → s.cv = chainAfter s.cfg s.msg s.len.toNat s.blk.toNat
  /-- After EXPAND, W is the schedule of block blk (R127). -/
  sched : s.phase = .round ∨ s.phase = .feed → s.w = expandBlock (padBlock s.msg s.len.toNat s.blk.toNat)
  /-- In ROUND, A..H are CV after rounds 0 to j − 1 (R151). -/
  working : s.phase = .round → s.regs = rounds s.cfg s.w s.j.toNat s.cv
  /-- In FEED, A..H are CV after all 64 rounds (R152). -/
  finished : s.phase = .feed → s.regs = rounds s.cfg s.w 64 s.cv

/-- `k` steps, stopping at the first fault or refusal: the host's `core.run`, said over State itself (`run_eq_core_run`
in Laws/Step.lean). -/
def run : Nat → State → Host.Outcome State Fault Refusal
  | 0, s => .next s
  | k + 1, s =>
    match step s with
    | .next t => run k t
    | .fault r => .fault r
    | .refused r => .refused r

/-- How many core steps of the current job have been taken (R206, R207): 66 for each block already fed, one for the
EXPAND of the current block, and one for each of its rounds. -/
def State.jobPosition (s : State) : Nat :=
  match s.phase with
  | .idle => 0
  | .expand => 66 * s.blk.toNat
  | .round => 66 * s.blk.toNat + 1 + s.j.toNat
  | .feed => 66 * s.blk.toNat + 65

/-- Two states the host cannot tell apart now or later (R43): they differ at most in A..H and W, and not even there
while a block's rounds are read from them. -/
def State.SameToHost (s t : State) : Prop :=
  t = { s with regs := t.regs, w := t.w } ∧
    (s.phase = .round ∨ s.phase = .feed → t.regs = s.regs ∧ t.w = s.w)

end Sys2Proof.Machine
end

