-- ==== Sys2Proof/Certificates/Slice0/Obligations.lean ====
section
/-! DEFINITION. The statements for the provers. Every statement over states holds for every value of the parameters,
of the message memory, of the hidden registers and of the coming turns: none rests on State.reset's chosen values. -/

open Sys2Proof Sys2Proof.Machine

/-! ## Encoding -/

/-- R71, R72, R73, R76: decoding the encoding of a well-formed instruction gives the instruction back, with every
operand at every value. The second clause, on words of 8, 32 and 72 bits whose length tells the form, rests on the
model's choice of log 16, not on the spec. -/
def Obligations.DecodeOfEncodeIsTheInstruction : Prop :=
  ∀ i : Instr, i.wf = true →
    decode (encode i) = .ok i ∧
      decodeTableWord (encode i).nbits (encode i).value = some i

/-- R71: what the decoder accepts is well-formed and encodes back to the same form, but for the DATA of a read
record, which R71 says is ignored and written 0. -/
def Obligations.EncodeOfDecodeIsTheEncodedForm : Prop :=
  ∀ (e : Encoded) (i : Instr), decode e = .ok i → i.wf = true ∧ encode i = e.canonical

/-- R71: the 66-bit string and the record of three fields are the same data, KIND in bits 65:64, ADDR in 63:32 and
DATA in 31:0. -/
def Obligations.HostTxnPackingKeepsEveryBit : Prop :=
  (∀ t : HostTxn, HostTxn.unpack t.pack = t) ∧ (∀ b : BitVec 66, (HostTxn.unpack b).pack = b) ∧
    ∀ t : HostTxn, t.pack.toNat = t.kind.toNat * 2 ^ 64 + t.addr.toNat * 2 ^ 32 + t.data.toNat

/-- R72: the full 32-bit match values, and that every word decodes to exactly one of the four. -/
def Obligations.CommandWordsDecodeByFullMatch : Prop :=
  ∀ v : Word,
    (decode (.cmd v) = .ok .nop ↔ v = 0x00000000) ∧
    (decode (.cmd v) = .ok .start ↔ v = 0x00000001) ∧
    (decode (.cmd v) = .ok .clear ↔ v = 0x00000002) ∧
    (decode (.cmd v) = .ok (.illegal v) ↔ v.extractLsb' 8 24 ≠ 0 ∨ 0x03 ≤ (v.extractLsb' 0 8).toNat) ∧
    (decode (.cmd v) = .ok .nop ∨ decode (.cmd v) = .ok .start ∨ decode (.cmd v) = .ok .clear ∨
      decode (.cmd v) = .ok (.illegal v))

/-- R200: a record is rejected exactly when it is a REG_RD or REG_WR whose ADDR is not a multiple of 4 or is at or
above 0x1000; no other record is. -/
def Obligations.OnlyIllegalRegisterOffsetsAreRejected : Prop :=
  ∀ t : HostTxn,
    (∃ r, decode (.hosttxn t) = .error r) ↔
      (t.kind = 0 ∨ t.kind = 1) ∧ (t.addr.toNat % 4 ≠ 0 ∨ 0x1000 ≤ t.addr.toNat)

/-- A few words written out from R71, R72 and R73: host-program lines of 95_test_vectors.md, command words, phase
codes. That a record is asked for as a 72-bit word in the last clause is the model's choice (log 16), as are the names
of the two rejections (log 11); the spec fixes neither. -/
def Obligations.WordsOfTheSpecDecode : Prop :=
  decode (.hosttxn ⟨0, 0x00000004, 0⟩) = .ok (.regRd 0x004) ∧
  decode (.hosttxn ⟨1, 0x00000008, 0x00000003⟩) = .ok (.regWr 0x008 3) ∧
  decode (.hosttxn ⟨2, 0x00001000, 0⟩) = .ok (.msgRd 4096) ∧
  decode (.hosttxn ⟨3, 0x00000005, 0x000001FF⟩) = .ok (.msgWr 5 0x1FF) ∧
  decode (.hosttxn ⟨0, 0x00000002, 0⟩) = .error .misalignedOffset ∧
  decode (.hosttxn ⟨1, 0x00001000, 1⟩) = .error .offsetOutOfRange ∧
  decode (.cmd 0x00000101) = .ok (.illegal 0x101) ∧
  decode (.cmd 0x00000001) = .ok .start ∧
  decode (.phase 0) = .ok .idle ∧ decode (.phase 1) = .ok .expand ∧
  decode (.phase 2) = .ok .round ∧ decode (.phase 3) = .ok .feed ∧
  decodeTableWord 72 0x10000000800000003 = some (.regWr 0x008 3)

/-! ## A step -/

/-- A host turn runs the instruction its next record decodes to, having taken the turn and the line off their lists;
and a REG_WR to CMD runs the command its value decodes to (R190). The lists are the model's form (logs 6 and 7). -/
def Obligations.HostTurnRunsTheDecodedRecord : Prop :=
  (∀ (s : State) (t : HostTxn) (i : Instr) (turns : List Turn) (lines : List HostLine),
    s.program = .txn t :: lines → decode (.hosttxn t) = .ok i →
    (s.turns = .host :: turns → step s = exec i { s with turns := turns, program := lines }) ∧
    (s.turns = [] → s.phase = .idle → step s = exec i { s with program := lines })) ∧
  ∀ (s : State) (v : Word) (i : Instr), decode (.cmd v) = .ok i → exec (.regWr 0x000 v) s = exec i s

/-- R205: a core turn runs the micro-operation the phase code decodes to; with the phase IDLE the core has no step,
and the turn changes nothing but the list of turns (log 9). -/
def Obligations.CoreTurnRunsThePhase : Prop :=
  ∀ (s : State) (turns : List Turn) (i : Instr), decode (.phase s.phase.code) = .ok i →
    (s.turns = .core :: turns → step s = exec i { s with turns := turns }) ∧
    (s.turns = [] → s.phase ≠ .idle → step s = exec i s) ∧
    (s.turns = .core :: turns → s.phase = .idle → step s = .next { s with turns := turns })

/-- A host turn with nothing left in the program changes nothing but the list of turns, and `poll` keeps reading
STATUS, with no effect, until (result AND MASK) = VAL; the last read's result is kept (R80). The form is the model's
(logs 7 and 8). -/
def Obligations.PollRepeatsUntilTheMaskedStatusMatches : Prop :=
  ∀ (s : State) (turns : List Turn), s.turns = .host :: turns →
    (s.program = [] → step s = .next { s with turns := turns }) ∧
    ∀ (mask val : Word) (lines : List HostLine), s.program = .poll mask val :: lines →
      (s.statusWord &&& mask ≠ val → step s = .next { s with turns := turns }) ∧
      (s.statusWord &&& mask = val →
        step s = .next { s with turns := turns, program := lines, results := s.results ++ [s.statusWord] })

/-- R260: a reset turn is one step, whatever the phase. Control state takes its reset values, CV, A..H and W take the
draw, each message byte below MSG_CAP takes the draw's byte, and no byte lies beyond; parameters, program and results
stay (log 15). -/
def Obligations.ResetTurnPutsTheResetValues : Prop :=
  ∀ (s : State) (d : ResetDraw) (turns : List Turn), s.turns = .reset d :: turns →
    ∃ m : Memory,
      step s = .next { s with
        phase := .idle, j := 0, blk := 0, done := false, lenErr := false, cmdErr := false, wrErr := false, len := 0,
        cv := d.cv, regs := d.regs, w := d.w, msg := m, turns := turns } ∧
      m.wf ∧ m.within s.cfg.msgCap ∧
      ∀ a, a < s.cfg.msgCap → m.read a = Memory.read d.msg a

/-- R53, R260: the draw is free. Every contents a message memory can have is what some draw leaves. The draw's form is the model's (log 21). -/
def Obligations.EveryMemoryIsSomeDraw : Prop :=
  ∀ (s : State) (m : Memory), m.wf → m.within s.cfg.msgCap →
    ∃ d : ResetDraw, (s.resetEvent d).msg = m

/-- The instruction a table word stands for is the one the next step runs when the word is placed. The placement and
the words' lengths are the model's choice (logs 14 and 16). -/
def Obligations.PlacedWordIsRunNext : Prop :=
  ∀ (i : Instr) (s : State), i.wf = true →
    step (s.withFetchWord (encode i).nbits (encode i).value) =
      match i with
      | .idle => exec i { s with phase := .idle }
      | .expand => exec i { s with phase := .expand }
      | .round => exec i { s with phase := .round }
      | .feed => exec i { s with phase := .feed }
      | _ => exec i s

/-! ## Commands -/

/-- R191: NOP has no effect, in every phase. -/
def Obligations.NopHasNoEffectInEveryPhase : Prop :=
  decode (.cmd 0x00000000) = .ok .nop ∧
  ∀ s : State, exec .nop s = .next s ∧ exec (.regWr 0x000 0x00000000) s = .next s

/-- R192: any other command word raises CMD_ERR and changes nothing else, in every phase. -/
def Obligations.IllegalCommandOnlyRaisesCmdErr : Prop :=
  ∀ (v : Word) (s : State), v.extractLsb' 8 24 ≠ 0 ∨ 0x03 ≤ (v.extractLsb' 0 8).toNat →
    decode (.cmd v) = .ok (.illegal v) ∧
    exec (.illegal v) s = .next { s with cmdErr := true } ∧
    exec (.regWr 0x000 v) s = .next { s with cmdErr := true }

/-- R193: the three cases of START. -/
def Obligations.StartBeginsAJobOrRaisesAFlag : Prop :=
  decode (.cmd 0x00000001) = .ok .start ∧
  ∀ s : State,
    exec (.regWr 0x000 0x00000001) s = exec .start s ∧
    (s.phase ≠ .idle → exec .start s = .next { s with cmdErr := true }) ∧
    (s.phase = .idle → s.cfg.msgCap < s.len.toNat →
      exec .start s = .next { s with done := false, lenErr := true }) ∧
    (s.phase = .idle → s.len.toNat ≤ s.cfg.msgCap →
      exec .start s = .next { s with
        done := false, lenErr := false, cv := s.cfg.iv, blk := 0, j := 0, phase := .expand })

/-- R194: CLEAR aborts any job and clears the four flags; CV, A..H, W, LEN and MSG stay. -/
def Obligations.ClearAbortsAndClearsTheFlags : Prop :=
  decode (.cmd 0x00000002) = .ok .clear ∧
  ∀ s : State,
    exec (.regWr 0x000 0x00000002) s = exec .clear s ∧
    exec .clear s = .next { s with
      phase := .idle, j := 0, blk := 0, done := false, lenErr := false, cmdErr := false, wrErr := false }

/-- R265: a START that starts a job sets BUSY in its own step: with no error flag set before, STATUS reads 0x101
(BUSY, PHASE = 1) right after it. -/
def Obligations.StartIsBusyAtOnce : Prop :=
  ∀ s : State, s.phase = .idle → s.len.toNat ≤ s.cfg.msgCap → s.cmdErr = false → s.wrErr = false →
    ∃ t, exec .start s = .next t ∧ t.statusWord = 0x00000101

/-! ## Host transactions -/

/-- R196: what each register offset reads as, and that a read changes nothing but the results the host has got. -/
def Obligations.RegisterReadReturnsTheMap : Prop :=
  ∀ (s : State) (off : Word), off.toNat % 4 = 0 → off.toNat < 0x1000 →
    exec (.regRd off) s = .next { s with results := s.results ++ [
      if off = 0x000 then 0x00000000
      else if off = 0x004 then s.statusWord
      else if off = 0x008 then s.len
      else if off = 0x00C then s.blk
      else if h : 0x020 ≤ off.toNat ∧ off.toNat < 0x040 then s.cv[(off.toNat - 0x020) / 4]'(by omega)
      else 0x00000000] }

/-- R38: every bit of the STATUS word. -/
def Obligations.StatusWordBitByBit : Prop :=
  ∀ s : State,
    s.statusWord.getLsbD 0 = decide (s.phase ≠ .idle) ∧
    s.statusWord.getLsbD 1 = s.done ∧
    s.statusWord.getLsbD 2 = s.lenErr ∧
    s.statusWord.getLsbD 3 = s.cmdErr ∧
    s.statusWord.getLsbD 4 = s.wrErr ∧
    s.statusWord.extractLsb' 5 3 = 0 ∧
    s.statusWord.extractLsb' 8 2 =
      (match s.phase with
       | .idle => 0
       | .expand => 1
       | .round => 2
       | .feed => 3) ∧
    s.statusWord.extractLsb' 10 6 = 0 ∧
    s.statusWord.extractLsb' 16 6 = s.j ∧
    s.statusWord.extractLsb' 22 10 = 0

/-- R197: a REG_WR performs a command, writes LEN while IDLE, raises WR_ERR for a LEN write while BUSY, and has no
effect anywhere else. -/
def Obligations.RegisterWriteCases : Prop :=
  ∀ (s : State) (off v : Word), off.toNat % 4 = 0 → off.toNat < 0x1000 →
    (off = 0x000 → exec (.regWr off v) s = exec (decodeCmd v).toInstr s ∧ ∃ t, exec (.regWr off v) s = .next t) ∧
    (off = 0x008 → s.phase = .idle → exec (.regWr off v) s = .next { s with len := v }) ∧
    (off = 0x008 → s.phase ≠ .idle → exec (.regWr off v) s = .next { s with wrErr := true }) ∧
    (off ≠ 0x000 → off ≠ 0x008 → exec (.regWr off v) s = .next s)

/-- R198: a MSG_RD returns the byte, zero-extended, below MSG_CAP and 0 elsewhere, in any phase, with no side
effect. -/
def Obligations.MessageReadReturnsTheByte : Prop :=
  ∀ (s : State) (a : Word),
    (a.toNat < s.cfg.msgCap →
      exec (.msgRd a) s = .next { s with results := s.results ++ [(s.msg.read a.toNat).setWidth 32] }) ∧
    (s.cfg.msgCap ≤ a.toNat → exec (.msgRd a) s = .next { s with results := s.results ++ [0x00000000] })

/-- R199, R51: a MSG_WR is dropped beyond MSG_CAP, dropped with WR_ERR while BUSY, and otherwise stores v[7:0] at its
address and leaves every other byte as it was. -/
def Obligations.MessageWriteStoresOneByteOrIsDropped : Prop :=
  ∀ (s : State) (a v : Word), s.msg.wf →
    (s.cfg.msgCap ≤ a.toNat → exec (.msgWr a v) s = .next s) ∧
    (a.toNat < s.cfg.msgCap → s.phase ≠ .idle → exec (.msgWr a v) s = .next { s with wrErr := true }) ∧
    (a.toNat < s.cfg.msgCap → s.phase = .idle →
      ∃ m : Memory, exec (.msgWr a v) s = .next { s with msg := m } ∧ m.wf ∧
        ∀ c : Nat, m.read c = if c = a.toNat then v.extractLsb' 0 8 else s.msg.read c)

/-- R200: a register transaction at a misaligned or out-of-range offset has no step: the meaning and the host's turn
refuse it. The refusal's form is the model's (log 11). -/
def Obligations.BadRegisterTransactionsHaveNoStep : Prop :=
  ∀ (s : State) (off v d : Word), off.toNat % 4 ≠ 0 ∨ 0x1000 ≤ off.toNat →
    (∃ r, exec (.regRd off) s = .refused (.badRecord r)) ∧
    (∃ r, exec (.regWr off v) s = .refused (.badRecord r)) ∧
    (∀ turns lines, s.turns = .host :: turns → s.program = .txn ⟨0, off, d⟩ :: lines →
      ∃ r, step s = .refused (.badRecord r)) ∧
    (∀ turns lines, s.turns = .host :: turns → s.program = .txn ⟨1, off, v⟩ :: lines →
      ∃ r, step s = .refused (.badRecord r))

/-! ## Micro-operations -/

/-- R205: in IDLE the core has no step, and the IDLE code changes nothing; a phase code asked for outside its phase is
refused. Both are the model's choice (logs 9 and 12). -/
def Obligations.PhaseCodesRunOnlyInTheirPhase : Prop :=
  ∀ s : State,
    (s.phase = .idle → exec .idle s = .next s) ∧
    (s.phase ≠ .idle → exec .idle s = .refused (.notEnabled .idle)) ∧
    (s.phase ≠ .expand → exec .expand s = .refused (.notEnabled .expand)) ∧
    (s.phase ≠ .round → exec .round s = .refused (.notEnabled .round)) ∧
    (s.phase ≠ .feed → exec .feed s = .refused (.notEnabled .feed))

/-- R126, R123, R124: EXPAND writes the schedule of the current padded block, loads A..H from CV, clears j and goes
to ROUND; nothing else changes. R126's corner case that W[14] of the last block is 0 is not claimed: it fails for
LEN ≥ 2^29, where the model keeps the whole bit length (log 24). -/
def Obligations.ExpandWritesTheSchedule : Prop :=
  ∀ s : State, s.phase = .expand → s.len.toNat ≤ s.cfg.msgCap → s.blk.toNat < (s.len.toNat + 8) / 64 + 1 →
    ∃ w : Schedule,
      exec .expand s = .next { s with w := w, regs := s.cv, j := 0, phase := .round } ∧
      (∀ (i : Nat) (hi : i < 16),
        let b := padBlock s.msg s.len.toNat s.blk.toNat
        w[i] = be32 b[4 * i] b[4 * i + 1] b[4 * i + 2] b[4 * i + 3]) ∧
      ∀ (i : Nat) (h₁ : 16 ≤ i) (h₂ : i < 68),
        w[i] = p1 (w[i - 16] ^^^ w[i - 9] ^^^ rotl w[i - 3] 15) ^^^ rotl w[i - 13] 7 ^^^ w[i - 6]

/-- R104, R103: outside the Padding Unit's domain EXPAND stops by name (the model's choice, log 13). -/
def Obligations.ExpandFaultsOutsideThePaddingDomain : Prop :=
  ∀ s : State, s.phase = .expand →
    (s.cfg.msgCap < s.len.toNat → exec .expand s = .fault .paddingBeyondCapacity) ∧
    (s.len.toNat ≤ s.cfg.msgCap → (s.len.toNat + 8) / 64 + 1 ≤ s.blk.toNat → exec .expand s = .fault .noSuchBlock)

/-- R151, with R145 to R148 and R150: one round. -/
def Obligations.RoundUpdatesTheWorkingRegisters : Prop :=
  ∀ s : State, s.phase = .round →
    let A := s.regs[0]; let B := s.regs[1]; let C := s.regs[2]; let D := s.regs[3]
    let E := s.regs[4]; let F := s.regs[5]; let G := s.regs[6]; let H := s.regs[7]
    let j := s.j.toNat
    let T : Word := if j < 16 then s.cfg.tLo else s.cfg.tHi
    let FF : Word := if j < 16 then A ^^^ B ^^^ C else (A &&& B) ||| (A &&& C) ||| (B &&& C)
    let GG : Word := if j < 16 then E ^^^ F ^^^ G else (E &&& F) ||| (~~~E &&& G)
    let SS1 := rotl (rotl A 12 + E + rotl T (j % 32)) 7
    let SS2 := SS1 ^^^ rotl A 12
    let TT1 := FF + D + SS2 + (s.w[s.j.toNat]'(by omega) ^^^ s.w[s.j.toNat + 4]'(by omega))
    let TT2 := GG + H + SS1 + s.w[s.j.toNat]'(by omega)
    let regs : Words8 := #v[TT1, A, rotl B 9, C, TT2 ^^^ rotl TT2 9 ^^^ rotl TT2 17, E, rotl F 19, G]
    (s.j = 63 → exec .round s = .next { s with regs := regs, phase := .feed }) ∧
    (s.j ≠ 63 → exec .round s = .next { s with regs := regs, j := s.j + 1 })

/-- R173, R172: FEED XORs the working registers into CV, counts the block, and either goes on to the next block or
sets DONE and goes to IDLE; nothing else changes. -/
def Obligations.FeedFoldsIntoTheChainingValue : Prop :=
  ∀ s : State, s.phase = .feed →
    ∃ cv : Words8, (∀ i : Fin 8, cv[i] = s.regs[i] ^^^ s.cv[i]) ∧
      ((s.blk + 1).toNat = (s.len.toNat + 8) / 64 + 1 →
        exec .feed s = .next { s with cv := cv, blk := s.blk + 1, phase := .idle, done := true }) ∧
      ((s.blk + 1).toNat ≠ (s.len.toNat + 8) / 64 + 1 →
        exec .feed s = .next { s with cv := cv, blk := s.blk + 1, phase := .expand })

/-! ## Functions of the datapath -/

/-- R11: ROTL, bit by bit, with the amount taken modulo 32. -/
def Obligations.RotlMovesEveryBit : Prop :=
  ∀ (x : Word) (n : Nat),
    (∀ k, k < 32 → (rotl x n).getLsbD ((k + n) % 32) = x.getLsbD k) ∧ rotl x (n + 32) = rotl x n

/-- R12: BE32 as arithmetic, BE32bytes its inverse, and BE64bytes as arithmetic. -/
def Obligations.BigEndianConversions : Prop :=
  (∀ b0 b1 b2 b3 : Byte,
    (be32 b0 b1 b2 b3).toNat = b0.toNat * 2 ^ 24 + b1.toNat * 2 ^ 16 + b2.toNat * 2 ^ 8 + b3.toNat ∧
    be32Bytes (be32 b0 b1 b2 b3) = [b0, b1, b2, b3]) ∧
  (∀ x : Word, ∃ b0 b1 b2 b3, be32Bytes x = [b0, b1, b2, b3] ∧ be32 b0 b1 b2 b3 = x) ∧
  ∀ v : BitVec 64, (be64Bytes v).map BitVec.toNat =
    (List.range 8).map fun k => v.toNat / 256 ^ (7 - k) % 256

/-- R142: the boolean selectors, bit by bit: XOR of three for j < 16, then majority and choice. -/
def Obligations.SelectorsBitByBit : Prop :=
  ∀ (x y z : Word) (j : BitVec 6) (k : Nat), k < 32 →
    (j.toNat < 16 →
      (ff x y z j).getLsbD k = ((x.getLsbD k ^^ y.getLsbD k) ^^ z.getLsbD k) ∧
      (gg x y z j).getLsbD k = ((x.getLsbD k ^^ y.getLsbD k) ^^ z.getLsbD k)) ∧
    (16 ≤ j.toNat →
      (ff x y z j).getLsbD k = decide (2 ≤ (x.getLsbD k).toNat + (y.getLsbD k).toNat + (z.getLsbD k).toNat) ∧
      (gg x y z j).getLsbD k = if x.getLsbD k = true then y.getLsbD k else z.getLsbD k)

/-- R122, R143: P1 and P0, their linearity over XOR, and their values at 0 and 1. -/
def Obligations.PermutationsAreLinear : Prop :=
  (∀ x : Word, p1 x = x ^^^ rotl x 15 ^^^ rotl x 23) ∧ (∀ x : Word, p0 x = x ^^^ rotl x 9 ^^^ rotl x 17) ∧
  (∀ x y : Word, p1 (x ^^^ y) = p1 x ^^^ p1 y) ∧ (∀ x y : Word, p0 (x ^^^ y) = p0 x ^^^ p0 y) ∧
  p1 0 = 0 ∧ p1 0xFFFFFFFF = 0xFFFFFFFF ∧ p1 0x00000001 = 0x00808001 ∧ p0 0x00000001 = 0x00020201

/-- R174, R55: the digest is 32 bytes, and byte 4i + k is CV[i][31−8k : 24−8k]. -/
def Obligations.DigestBytesAreBigEndian : Prop :=
  ∀ cv : Words8, (digestBytes cv).length = 32 ∧
    ∀ (i k : Nat) (hi : i < 8), k < 4 →
      (digestBytes cv)[4 * i + k]? = some (cv[i].extractLsb' (24 - 8 * k) 8)

/-! ## Padding -/

/-- R101, R102: k is the least count of zero bits with bitLen + 1 + k ≡ 448 (mod 512); its two cases; the zero bytes
and the block count it gives. -/
def Obligations.ZeroBitCountIsLeast : Prop :=
  ∀ l : Nat, ∃ k : Nat, zeroBits l = k ∧ (8 * l + 1 + k) % 512 = 448 ∧
    (∀ k' : Nat, (8 * l + 1 + k') % 512 = 448 → k ≤ k') ∧
    (l % 64 ≤ 55 → k = 447 - 8 * (l % 64) ∧ zeroBytes l = 55 - l % 64) ∧
    (56 ≤ l % 64 → k = 959 - 8 * (l % 64) ∧ zeroBytes l = 119 - l % 64) ∧
    l + 1 + zeroBytes l + 8 = 64 * ((l + 8) / 64 + 1)

/-- R107: the padded message is a whole number of 512-bit blocks, ends with the length field, begins with the message
unchanged, has 0x80 after it, and no smaller zero count would do. -/
def Obligations.PaddingKeepsTheMessageAndFillsBlocks : Prop :=
  ∀ m : List Byte,
    8 * (pad m).length % 512 = 0 ∧
    (pad m).drop ((pad m).length - 8) = be64Bytes (BitVec.ofNat 64 (8 * m.length)) ∧
    (pad m).take m.length = m ∧
    (pad m)[m.length]? = some 0x80 ∧
    ∀ z : Nat, 8 * (m.length + 1 + z + 8) % 512 = 0 → zeroBytes m.length ≤ z

/-- R105, R103: the blocks PadBlock(0), ..., PadBlock(N−1), in order, are the consecutive 64-byte blocks of the
padded message, though the padded message is never stored. -/
def Obligations.PadBlocksAreThePaddedMessage : Prop :=
  ∀ (m : Memory) (l : Nat),
    (List.range (blockCount l)).flatMap (fun i => (padBlock m l i).toList) = pad (messageBytes m l)

/-- R108: the last eight bytes of the last block are the length field, most significant byte first. -/
def Obligations.LastBlockCarriesTheLength : Prop :=
  ∀ (m : Memory) (l k : Nat) (hk : k < 8),
    ((padBlock m l (blockCount l - 1))[56 + k]).toNat = 8 * l / 256 ^ (7 - k) % 256

/-- R52, R177 (a): the blocks, the expanded schedule and the digest of a message depend on no byte at or above its
length, and so only on MSG[0..L−1], L and the constants. -/
def Obligations.OnlyMessageBytesMatter : Prop :=
  ∀ (c : Config) (m m' : Memory) (l : Nat), (∀ a, a < l → m.read a = m'.read a) →
    (∀ i, padBlock m l i = padBlock m' l i) ∧ messageHash c m l = messageHash c m' l

/-! ## What changes what -/

/-- R22: an instruction that changes CV is FEED or START. -/
def Obligations.OnlyStartAndFeedWriteTheChainingValue : Prop :=
  ∀ (i : Instr) (s t : State), exec i s = .next t → t.cv ≠ s.cv →
    i = .feed ∨ i = .start ∨ i = .regWr 0x000 0x00000001

/-- R23, R24, R127: an instruction that changes W is EXPAND, and one that changes A..H is EXPAND or ROUND. -/
def Obligations.OnlyExpandAndRoundWriteTheDatapath : Prop :=
  ∀ (i : Instr) (s t : State), exec i s = .next t →
    (t.w ≠ s.w → i = .expand) ∧ (t.regs ≠ s.regs → i = .expand ∨ i = .round)

/-- R27, R52: an instruction that changes a message byte is a MSG_WR to that byte's address; every other byte, and
every byte under every other instruction, reads as before. -/
def Obligations.OnlyMessageWritesChangeTheMemory : Prop :=
  ∀ (i : Instr) (s t : State), s.msg.wf → exec i s = .next t →
    ∀ c : Nat, (∀ a v : Word, i = .msgWr a v → c ≠ a.toNat) → t.msg.read c = s.msg.read c

/-- R65, R45 (e): while a job runs no instruction changes LEN or MSG. -/
def Obligations.InputsAreStableDuringAJob : Prop :=
  ∀ (i : Instr) (s t : State), exec i s = .next t → s.phase ≠ .idle → t.len = s.len ∧ t.msg = s.msg

/-- R234: each error flag is set only by its cause. -/
def Obligations.ErrorFlagsHaveTheirCauses : Prop :=
  ∀ (i : Instr) (s t : State), exec i s = .next t →
    (t.lenErr = true → s.lenErr = false →
      (i = .start ∨ i = .regWr 0x000 0x00000001) ∧ s.phase = .idle ∧ s.cfg.msgCap < s.len.toNat) ∧
    (t.cmdErr = true → s.cmdErr = false →
      (∃ v, (i = .illegal v ∨ i = .regWr 0x000 v ∧ isIllegalWord v = true)) ∨
      (i = .start ∨ i = .regWr 0x000 0x00000001) ∧ s.phase ≠ .idle) ∧
    (t.wrErr = true → s.wrErr = false →
      s.phase ≠ .idle ∧
        ((∃ v, i = .regWr 0x008 v) ∨ ∃ a v : Word, i = .msgWr a v ∧ a.toNat < s.cfg.msgCap))

/-- R32, R31: the flags are sticky. CMD_ERR and WR_ERR are cleared only by CLEAR, LEN_ERR and DONE only by CLEAR and
an accepted START, and DONE is set only by FEED. -/
def Obligations.FlagsAreSticky : Prop :=
  ∀ (i : Instr) (s t : State), exec i s = .next t →
    (s.cmdErr = true → t.cmdErr = false → i = .clear ∨ i = .regWr 0x000 0x00000002) ∧
    (s.wrErr = true → t.wrErr = false → i = .clear ∨ i = .regWr 0x000 0x00000002) ∧
    (s.lenErr = true → t.lenErr = false →
      (i = .clear ∨ i = .regWr 0x000 0x00000002) ∨
      (i = .start ∨ i = .regWr 0x000 0x00000001) ∧ s.phase = .idle) ∧
    (s.done = true → t.done = false →
      (i = .clear ∨ i = .regWr 0x000 0x00000002) ∨
      (i = .start ∨ i = .regWr 0x000 0x00000001) ∧ s.phase = .idle) ∧
    (s.done = false → t.done = true → i = .feed)

/-- R235: one instruction sets at most one error flag. -/
def Obligations.AtMostOneErrorFlagIsSet : Prop :=
  ∀ (i : Instr) (s t : State), exec i s = .next t →
    (t.lenErr && !s.lenErr).toNat + (t.cmdErr && !s.cmdErr).toNat + (t.wrErr && !s.wrErr).toNat ≤ 1

/-- No step changes the parameters (log 4), and no result the host has got is lost (log 7). -/
def Obligations.ParametersAndResultsPersist : Prop :=
  ∀ s t : State, step s = .next t → t.cfg = s.cfg ∧ ∃ more, t.results = s.results ++ more

/-- R206: the sequencer's transitions. -/
def Obligations.SequencerTransitions : Prop :=
  ∀ s : State, s.Inv →
    (s.phase = .expand → ∃ t, exec .expand s = .next t ∧ t.phase = .round ∧ t.j = 0 ∧ t.blk = s.blk) ∧
    (s.phase = .round → s.j.toNat < 63 →
      ∃ t, exec .round s = .next t ∧ t.phase = .round ∧ t.j.toNat = s.j.toNat + 1 ∧ t.blk = s.blk) ∧
    (s.phase = .round → s.j = 63 → ∃ t, exec .round s = .next t ∧ t.phase = .feed ∧ t.j = 63 ∧ t.blk = s.blk) ∧
    (s.phase = .feed → s.blk.toNat + 1 < blockCount s.len.toNat →
      ∃ t, exec .feed s = .next t ∧ t.phase = .expand ∧ t.j = 63 ∧ t.blk.toNat = s.blk.toNat + 1) ∧
    (s.phase = .feed → s.blk.toNat + 1 = blockCount s.len.toNat →
      ∃ t, exec .feed s = .next t ∧ t.phase = .idle ∧ t.done = true ∧ t.j = 63 ∧
        t.blk.toNat = blockCount s.len.toNat) ∧
    (s.phase = .idle → s.len.toNat ≤ s.cfg.msgCap →
      ∃ t, exec .start s = .next t ∧ t.phase = .expand ∧ t.j = 0 ∧ t.blk = 0) ∧
    (s.phase = .idle → s.cfg.msgCap < s.len.toNat →
      ∃ t, exec .start s = .next t ∧ t.phase = .idle ∧ t.j = s.j ∧ t.blk = s.blk) ∧
    (∃ t, exec .clear s = .next t ∧ t.phase = .idle ∧ t.j = 0 ∧ t.blk = 0) ∧
    ∀ d, (s.resetEvent d).phase = .idle ∧ (s.resetEvent d).j = 0 ∧ (s.resetEvent d).blk = 0

/-- R207: while a job runs, a core step moves it one place on, or ends it at place 66·N(LEN) with DONE set, and no
host transaction other than CLEAR moves it. -/
def Obligations.EachCoreStepMovesTheJobOnePlace : Prop :=
  ∀ s t : State, s.Inv → s.phase ≠ .idle →
    (exec s.phase.toInstr s = .next t →
      (s.jobPosition + 1 < 66 * blockCount s.len.toNat ∧ t.phase ≠ .idle ∧ t.jobPosition = s.jobPosition + 1) ∨
      (s.jobPosition + 1 = 66 * blockCount s.len.toNat ∧ t.phase = .idle ∧ t.done = true)) ∧
    ∀ i : Instr, i ≠ .expand → i ≠ .round → i ≠ .feed → i ≠ .clear → i ≠ .regWr 0x000 0x00000002 →
      exec i s = .next t → t.phase = s.phase ∧ t.j = s.j ∧ t.blk = s.blk ∧ t.len = s.len

/-- R7, R240: a system has NINST hash cores, which share nothing. Core `k`'s step is that core's own step and leaves
every other core as it was; a step keeps the system's parameters, and a system right after reset has them. That a
system steps one core at a time is the model's form (log 1). -/
def Obligations.HashCoresShareNothing : Prop :=
  ∀ c : Config,
    (∀ sys sys' : System c, ∀ k : Fin c.ninst, sys.stepAt k = .next sys' →
      step sys[k] = .next sys'[k] ∧ (∀ l : Fin c.ninst, l ≠ k → sys'[l] = sys[l]) ∧ (sys.wf → sys'.wf)) ∧
    (∀ (sys : System c) (k : Fin c.ninst) (t : State), step sys[k] = .next t → ∃ sys', sys.stepAt k = .next sys') ∧
    (c.wf → (System.reset c).wf)

/-! ## The whole machine -/

/-- R44: what reset leaves, for the state the spec gives a value; STATUS and BLKCNT read 0. -/
def Obligations.ResetLeavesTheControlState : Prop :=
  State.reset.phase = .idle ∧ State.reset.j = 0 ∧ State.reset.blk = 0 ∧ State.reset.len = 0 ∧
  State.reset.done = false ∧ State.reset.lenErr = false ∧ State.reset.cmdErr = false ∧
  State.reset.wrErr = false ∧ State.reset.statusWord = 0x00000000 ∧
  State.reset.readRegister .blkcnt = 0x00000000

/-- The invariants hold at reset. -/
def Obligations.ResetMeetsTheInvariants : Prop :=
  State.reset.Inv ∧ State.reset.OnCourse

/-- R45 (b), (c), (d), with R6, R7 and the memory's canonical form: every step keeps the invariant, whatever the
interleaving, resets among it. -/
def Obligations.EveryStepKeepsTheInvariant : Prop :=
  ∀ s t : State, s.Inv → step s = .next t → t.Inv

/-- R176, R152, R127: every step keeps the job on course, whatever the interleaving: CV is the fold of Compress over
the blocks already fed, W the schedule of the current block, A..H its rounds so far. -/
def Obligations.EveryStepKeepsTheJobOnCourse : Prop :=
  ∀ s t : State, s.Inv → s.OnCourse → step s = .next t → t.OnCourse

/-- R176, R45 (d): in every interleaving, the step that sets DONE leaves in CV the hash of the message MSG[0..LEN−1],
with blk = N(LEN). -/
def Obligations.DoneMeansTheMessageHash : Prop :=
  ∀ s t : State, s.Inv → s.OnCourse → step s = .next t → s.done = false → t.done = true →
    t.cv = messageHash t.cfg t.msg t.len.toNat ∧ t.msg = s.msg ∧ t.len = s.len ∧
      t.blk.toNat = blockCount t.len.toNat

/-- R175, R62 (b): the digest stays while DONE stays: a step from DONE to DONE leaves every DIGEST register. -/
def Obligations.DigestStaysWhileDone : Prop :=
  ∀ s t : State, s.Inv → step s = .next t → s.done = true → t.done = true →
    ∀ i : Fin 8, t.readRegister (.digest i) = s.readRegister (.digest i)

/-- R205, R200: from a state with the invariant no step faults, and the only step there is not is the host's at a
record with no meaning (log 11). -/
def Obligations.InvariantStatesNeverFault : Prop :=
  ∀ s : State, s.Inv →
    (∃ t, step s = .next t) ∨
    ((∃ r, step s = .refused (.badRecord r)) ∧
      ∃ t lines, s.program = .txn t :: lines ∧ (t.kind = 0 ∨ t.kind = 1) ∧
        (t.addr.toNat % 4 ≠ 0 ∨ 0x1000 ≤ t.addr.toNat))

/-- R207, R176: a job that the core is left to run ends after exactly 66·N(LEN) steps, BUSY until then, with DONE set
and the message's hash in CV; LEN and MSG are as they were. The core is left to run when no turn is listed (log 6). -/
def Obligations.JobEndsAfterSixtySixStepsPerBlock : Prop :=
  ∀ s : State, s.turns = [] → s.phase = .expand → s.blk = 0 → s.cv = s.cfg.iv → s.len.toNat ≤ s.cfg.msgCap →
    (∃ t, run (66 * blockCount s.len.toNat) s = .next t ∧ t.phase = .idle ∧ t.done = true ∧
      t.blk.toNat = blockCount s.len.toNat ∧ t.len = s.len ∧ t.msg = s.msg ∧
      t.cv = messageHash s.cfg s.msg s.len.toNat) ∧
    ∀ k, k < 66 * blockCount s.len.toNat → ∃ u : State, run k s = .next u ∧ u.phase ≠ .idle

/-- R57: every infinite interleaving is an execution. Take any endless sequence of states, each left by one event
performed in the state before it: a core step of a busy core (R205), a host transaction or a reset. Where no turn and no
line is listed at its start, some execution goes through exactly these states. The lists it feeds are the model's form
(logs 6, 7 and 20). -/
def Obligations.EveryInfiniteInterleavingIsAnExecution : Prop :=
  ∀ (states : Nat → State) (events : Nat → Event), (states 0).turns = [] → (states 0).program = [] →
    (∀ n, events n = .core → (states n).phase ≠ .idle) →
    (∀ n, (events n).perform (states n) = .next (states (n + 1))) →
    ∃ x : Execution, ∀ n, x.state n = states n

/-- R271, R207, R176, R80: in every weakly fair infinite execution, whatever the interleaving,

- a job that is not cleared or reset reaches DONE, with the hash of its message in CV and LEN and MSG as they were. It
  takes exactly 66·N(LEN) core steps from the start of the job: those before the execution begins (its place in the job)
  and those counted in it;
- a `poll` that is the host's next line terminates, if no reset falls: it stays the next line, until a host turn finds
  its condition true, takes it off the program and keeps that read's result. This holds of `wait`, in every phase; of
  `poll 0x00000003, 0x00000002`, once a job has started; and of every other poll whose condition the STATUS of the first
  idle state meets.

The lists an execution feeds and what a poll keeps are the model's form (logs 6, 7, 8 and 20). -/
def Obligations.FairJobsAndPollsEnd : Prop :=
  ∀ x : Execution, x.Fair → (x.state 0).Inv → (x.state 0).OnCourse →
    ((x.state 0).phase ≠ .idle → (∀ n, ¬ (x.before n).Aborts) →
      ∃ n, (∀ m, m < n → (x.state m).phase ≠ .idle) ∧ (x.state n).phase = .idle ∧ (x.state n).done = true ∧
        (x.state n).len = (x.state 0).len ∧ (x.state n).msg = (x.state 0).msg ∧
        (x.state n).cv = messageHash (x.state 0).cfg (x.state 0).msg (x.state 0).len.toNat ∧
        (x.state 0).jobPosition + x.coreSteps n = 66 * blockCount (x.state 0).len.toNat) ∧
    ∀ (mask val : Word) (lines : List HostLine), (x.state 0).program = .poll mask val :: lines →
      (∀ n d, (x.before n).turnNow ≠ .reset d) →
      (mask = 0x00000001 ∧ val = 0x00000000 ∨
        mask = 0x00000003 ∧ val = 0x00000002 ∧ ((x.state 0).phase ≠ .idle ∨ (x.state 0).done = true) ∨
        ∀ n, (∀ m, m < n → (x.state m).phase ≠ .idle) → (x.state n).phase = .idle →
          (x.state n).statusWord &&& mask = val) →
      ∃ n rest, (x.before n).turnNow = .host ∧ (x.before n).program = .poll mask val :: rest ∧
        (x.state n).statusWord &&& mask = val ∧ (x.state (n + 1)).program = rest ∧
        (x.state (n + 1)).results = (x.state n).results ++ [(x.state n).statusWord] ∧
        ∀ m, m ≤ n → ∃ rest', (x.state m).program = .poll mask val :: rest'

/-- R43: A..H and W are hidden. Two states that differ only there, outside a block's rounds, take the same steps for
ever: each step of one is a step of the other, to states that again differ only there, and every result the host gets
is the same. -/
def Obligations.HiddenRegistersAreNeverObserved : Prop :=
  ∀ s s' t : State, s.SameToHost s' → step s = .next t →
    ∃ t', step s' = .next t' ∧ t.SameToHost t' ∧ t'.results = t.results ∧ t'.cv = t.cv ∧
      t'.statusWord = t.statusWord
end

