-- ==== Sys2Proof/Laws/Operands.lean ====
section
/-! SUPPORT. What the decoder and the register map answer, said once. -/

namespace Sys2Proof

theorem offsetProblem_eq_none {off : Word} : offsetProblem off = none ↔ isRegOffset off = true := by
  simp only [offsetProblem, isRegOffset]
  repeat' split
  all_goals simp_all

/-- R72 in full 32-bit match values: NOP, START and CLEAR are 0, 1 and 2, every other word is ILLEGAL. -/
theorem decodeCmd_eq (v : Word) :
    decodeCmd v = if v = 0 then .nop else if v = 1 then .start else if v = 2 then .clear else .illegal v := by
  simp only [decodeCmd, ← BitVec.toNat_inj, BitVec.extractLsb'_toNat, Nat.shiftRight_eq_div_pow, ne_eq]
  have := v.isLt
  repeat' split
  all_goals simp_all
  all_goals omega

theorem decodeCmd_start {v : Word} : decodeCmd v = .start ↔ v = 1 := by
  rw [decodeCmd_eq]; repeat' split
  all_goals simp_all

theorem decodeCmd_clear {v : Word} : decodeCmd v = .clear ↔ v = 2 := by
  rw [decodeCmd_eq]; repeat' split
  all_goals simp_all

theorem decodeCmd_illegal {v u : Word} : decodeCmd v = .illegal u ↔ u = v ∧ isIllegalWord v = true := by
  rw [decodeCmd_eq]
  by_cases h0 : v = 0
  · subst h0; simp [isIllegalWord]
  by_cases h1 : v = 1
  · subst h1; simp [isIllegalWord]
  by_cases h2 : v = 2
  · subst h2; simp [isIllegalWord]
  rw [if_neg h0, if_neg h1, if_neg h2]
  have hw : isIllegalWord v = true := by simp_all [isIllegalWord]
  exact ⟨fun e => ⟨(Command.illegal.inj e).symm, hw⟩, fun e => by rw [e.1]⟩

/-- The fields of an illegal word, in one predicate. -/
theorem isIllegalWord_iff (v : Word) :
    isIllegalWord v = true ↔ v.extractLsb' 8 24 ≠ 0 ∨ 0x03 ≤ (v.extractLsb' 0 8).toNat := by
  have := v.isLt
  simp [isIllegalWord, ← BitVec.toNat_inj, BitVec.extractLsb'_toNat, Nat.shiftRight_eq_div_pow]
  omega

/-- A register transaction decodes exactly at a legal offset. -/
theorem withLegalOffset_eq_ok {off : Word} {i j : Instr} :
    withLegalOffset off i = .ok j ↔ isRegOffset off = true ∧ i = j := by
  rw [← offsetProblem_eq_none]; unfold withLegalOffset; split <;> simp_all

theorem decodePhase_code (p : Phase) : decodePhase p.code = p := by cases p <;> rfl

namespace Machine

theorem registerAt_cmd {off : Word} : registerAt off = .cmd ↔ off = cmdOffset := by
  simp only [registerAt, cmdOffset]
  repeat' split
  all_goals simp_all

theorem registerAt_len {off : Word} : registerAt off = .len ↔ off = lenOffset := by
  simp only [registerAt, lenOffset]
  repeat' split
  all_goals simp_all

theorem registerAt_status {off : Word} : registerAt off = .status ↔ off = statusOffset := by
  simp only [registerAt, statusOffset]
  repeat' split
  all_goals simp_all

theorem registerAt_blkcnt {off : Word} : registerAt off = .blkcnt ↔ off = blkcntOffset := by
  simp only [registerAt, blkcntOffset]
  repeat' split
  all_goals simp_all

theorem registerAt_digest (i : Fin 8) : registerAt (digestOffset i) = .digest i := by
  revert i; decide

end Machine
end Sys2Proof
end

