-- ==== Sys2Proof/Laws/Datapath.lean ====
section
/-! SUPPORT. What the functions of the datapath answer, said once: the rotation, the schedule, the chain of blocks, and
the two counters. -/

namespace Sys2Proof.Machine

/-! ## The rotation -/

/-- Rotation distributes over XOR. -/
theorem rotl_xor (x y : Word) (n : Nat) : rotl (x ^^^ y) n = rotl x n ^^^ rotl y n := by
  unfold rotl; dsimp only; split
  · rfl
  · ext i hi
    simp only [BitVec.getElem_or, BitVec.getElem_xor, BitVec.getElem_shiftLeft, BitVec.getElem_ushiftRight,
      BitVec.getLsbD_xor]
    by_cases h : i < n % 32
    · simp [h]
    · have : 32 ≤ 32 - n % 32 + i := by omega
      simp [h, BitVec.getLsbD_of_ge _ _ this]

/-! ## The schedule -/

theorem length_firstWords (b : Block) : (firstWords b).length = 16 := by simp [firstWords]

/-- `nextWord` at a list whose length is known. -/
theorem nextWord_eq (ws : List Word) (i : Nat) (hi : ws.length = i) :
    nextWord ws =
      p1 (ws.getD (i - 16) 0 ^^^ ws.getD (i - 9) 0 ^^^ rotl (ws.getD (i - 3) 0) 15) ^^^ rotl (ws.getD (i - 13) 0) 7
        ^^^ ws.getD (i - 6) 0 := by
  subst hi; rfl

/-- Extension keeps the words already there. -/
theorem extendWords_prefix (n : Nat) (ws : List Word) : ws <+: extendWords n ws := by
  induction n generalizing ws with
  | zero => exact List.prefix_rfl
  | succ n ih => exact (List.prefix_append _ _).trans (ih _)

/-- Each derived word is the next word after the words before it. -/
theorem getElem_extendWords (n : Nat) (ws : List Word) (i : Nat) (h₁ : ws.length ≤ i)
    (h₂ : i < (extendWords n ws).length) : (extendWords n ws)[i] = nextWord ((extendWords n ws).take i) := by
  induction n generalizing ws with
  | zero => simp [extendWords] at h₂; omega
  | succ n ih =>
    simp only [extendWords] at h₂ ⊢
    rcases Nat.eq_or_lt_of_le h₁ with rfl | hlt
    · obtain ⟨tl, htl⟩ := extendWords_prefix n (ws ++ [nextWord ws])
      have e1 : (extendWords n (ws ++ [nextWord ws]))[ws.length] = nextWord ws := by simp [← htl]
      have e2 : (extendWords n (ws ++ [nextWord ws])).take ws.length = ws := by rw [← htl]; simp
      rw [e1, e2]
    · exact ih _ (by simpa using hlt) h₂

theorem getElem_expandBlock (b : Block) (i : Nat) (hi : i < 68) :
    (expandBlock b)[i] = (extendWords 52 (firstWords b))[i]'(by simp [length_extendWords, length_firstWords, hi]) := by
  simp only [expandBlock, Vector.getElem_mk, List.getElem_toArray]

/-- The first sixteen words of a schedule are the block's words (R124). -/
theorem expandBlock_first (b : Block) (i : Nat) (hi : i < 16) :
    (expandBlock b)[i] = be32 b[4 * i] b[4 * i + 1] b[4 * i + 2] b[4 * i + 3] := by
  rw [getElem_expandBlock, ← (extendWords_prefix 52 (firstWords b)).getElem (by simp [length_firstWords, hi])]
  simp [firstWords]

/-- Every later word is R123's function of five words before it. -/
theorem expandBlock_rec (b : Block) (i : Nat) (h₁ : 16 ≤ i) (h₂ : i < 68) :
    (expandBlock b)[i] =
      p1 ((expandBlock b)[i - 16] ^^^ (expandBlock b)[i - 9] ^^^ rotl (expandBlock b)[i - 3] 15)
        ^^^ rotl (expandBlock b)[i - 13] 7 ^^^ (expandBlock b)[i - 6] := by
  have hL : (extendWords 52 (firstWords b)).length = 68 := by simp [length_extendWords, length_firstWords]
  have g (k : Nat) (hk : k < i) : ((extendWords 52 (firstWords b)).take i).getD k 0 = (expandBlock b)[k] := by
    rw [List.getD_eq_getElem _ _ (by simp; omega), List.getElem_take, getElem_expandBlock]
  rw [getElem_expandBlock, getElem_extendWords _ _ _ (by simp [length_firstWords, h₁]), nextWord_eq _ i (by simp; omega),
    g _ (by omega), g _ (by omega), g _ (by omega), g _ (by omega), g _ (by omega)]

/-! ## Rounds and blocks -/

/-- One round more (R152). -/
theorem rounds_succ (c : Config) (w : Schedule) (n : Nat) (r : Words8) :
    rounds c w (n + 1) r = roundStep c w (BitVec.ofNat 6 n) (rounds c w n r) := rfl

theorem getElem_feedForward (r cv : Words8) (i : Fin 8) : (feedForward r cv)[i] = r[i] ^^^ cv[i] := by
  simp [feedForward]

theorem chainAfter_zero (c : Config) (m : Memory) (l : Nat) : chainAfter c m l 0 = c.iv := rfl

/-- One block more (R176). -/
theorem chainAfter_succ (c : Config) (m : Memory) (l n : Nat) :
    chainAfter c m l (n + 1) = compress c (chainAfter c m l n) (padBlock m l n) := by
  simp [chainAfter, List.range_succ]

/-! ## The counters -/

theorem blockCount_pos (l : Nat) : 0 < blockCount l := by unfold blockCount; omega

/-- A block count fits the block counter. -/
theorem blockCount_lt (s : State) : blockCount s.len.toNat < 2 ^ 32 := by
  have := s.len.isLt; unfold blockCount; omega

/-- Below the block count the block counter does not wrap (log 19). -/
theorem blk_succ {s : State} (h : s.blk.toNat < blockCount s.len.toNat) : (s.blk + 1).toNat = s.blk.toNat + 1 := by
  have := blockCount_lt s
  rw [BitVec.toNat_add]; simp; omega

/-- Below 63 the round counter does not wrap. -/
theorem j_succ {j : BitVec 6} (h : j ≠ 63) : (j + 1).toNat = j.toNat + 1 := by
  have h1 : j.toNat ≠ 63 := fun e => h (by rw [← BitVec.toNat_inj]; exact e)
  rw [BitVec.toNat_add]; simp; omega

end Sys2Proof.Machine
end

