-- ==== Sys2Proof/Laws/Memory.lean ====
section
/-! SUPPORT. The laws of the message memory: a read after a write, and that every operation keeps the canonical
form. -/

namespace Sys2Proof.Machine

theorem Memory.wf_nil : Memory.wf [] := by simp [Memory.wf]

theorem Memory.wf_tail {c : Host.Cell} {m : Memory} (h : Memory.wf (c :: m)) : Memory.wf m :=
  ⟨(List.pairwise_cons.mp h.1).2, fun x hx => h.2 x (List.mem_cons_of_mem _ hx)⟩

/-- An address below every listed one reads as unlisted. -/
theorem Memory.read_of_lt {m : Memory} {a : Nat} (h : ∀ c ∈ m, a < c.1) : m.read a = unlisted := by
  induction m with
  | nil => rfl
  | cons c m ih =>
    have hc := h c (by simp)
    rw [Memory.read, if_neg (by omega)]
    exact ih fun x hx => h x (by simp [hx])

theorem Memory.read_cons (b : Nat) (x : Byte) (m : Memory) (a : Nat) :
    Memory.read ((b, x) :: m) a = if a = b then x else m.read a := rfl

/-- Reading after writing, in a canonical memory: the byte written at its address, every other byte as before. -/
theorem Memory.read_write {m : Memory} (h : m.wf) (a c : Nat) (v : Byte) :
    (m.write a v).read c = if c = a then v else m.read c := by
  induction m with
  | nil =>
    simp only [Memory.write]
    split
    · subst v; simp [Memory.read]
    · simp [Memory.read]
  | cons e m ih =>
    obtain ⟨b, x⟩ := e
    have hb : ∀ y ∈ m, b < y.1 := (List.pairwise_cons.mp h.1).1
    simp only [Memory.write]
    split
    · next hab =>
      have hm : Memory.read ((b, x) :: m) a = unlisted := by
        apply Memory.read_of_lt
        intro y hy
        rcases List.mem_cons.mp hy with rfl | hy
        · exact hab
        · exact lt_trans hab (hb y hy)
      split
      · subst v
        by_cases hca : c = a
        · subst hca; simpa using hm
        · simp [hca]
      · by_cases hca : c = a <;> simp [Memory.read_cons, hca]
    · next hab =>
      split
      · next heq =>
        subst heq
        have hm : Memory.read m a = unlisted := Memory.read_of_lt hb
        split
        · subst v
          by_cases hca : c = a
          · subst hca; simpa using hm
          · simp [Memory.read_cons, hca]
        · by_cases hca : c = a <;> simp [Memory.read_cons, hca]
      · next hne =>
        rw [Memory.read_cons, ih (Memory.wf_tail h), Memory.read_cons]
        by_cases hcb : c = b
        · subst hcb; simp [Ne.symm hne]
        · simp [hcb]

theorem Memory.read_write_same {m : Memory} (h : m.wf) (a : Nat) (v : Byte) : (m.write a v).read a = v := by
  simp [Memory.read_write h]

theorem Memory.read_write_other {m : Memory} (h : m.wf) {a c : Nat} (hne : c ≠ a) (v : Byte) :
    (m.write a v).read c = m.read c := by
  simp [Memory.read_write h, hne]

/-- Where the entries of a written memory come from. -/
theorem Memory.mem_write {m : Memory} {a : Nat} {v : Byte} {c : Host.Cell} (h : c ∈ m.write a v) :
    c ∈ m ∨ (c = (a, v) ∧ v ≠ unlisted) := by
  induction m with
  | nil =>
    simp only [Memory.write] at h
    split at h
    · simp at h
    · next hv => right; exact ⟨by simpa using h, hv⟩
  | cons e m ih =>
    obtain ⟨b, x⟩ := e
    simp only [Memory.write] at h
    split at h
    · split at h
      · exact .inl h
      · next hv =>
        rcases List.mem_cons.mp h with rfl | h
        · exact .inr ⟨rfl, hv⟩
        · exact .inl h
    · split at h
      · split at h
        · exact .inl (by simp [h])
        · next hv =>
          rcases List.mem_cons.mp h with rfl | h
          · exact .inr ⟨rfl, hv⟩
          · exact .inl (by simp [h])
      · rcases List.mem_cons.mp h with rfl | h
        · exact .inl (by simp)
        · rcases ih h with h | h
          · exact .inl (by simp [h])
          · exact .inr h

/-- A write keeps the canonical form. -/
theorem Memory.wf_write {m : Memory} (h : m.wf) (a : Nat) (v : Byte) : (m.write a v).wf := by
  refine ⟨?_, fun c hc => ?_⟩
  · induction m with
    | nil => simp only [Memory.write]; split <;> simp
    | cons e m ih =>
      obtain ⟨b, x⟩ := e
      obtain ⟨hb, hp⟩ := List.pairwise_cons.mp h.1
      simp only [Memory.write]
      split
      · next hab =>
        split
        · exact h.1
        · refine List.pairwise_cons.mpr ⟨fun y hy => ?_, h.1⟩
          rcases List.mem_cons.mp hy with rfl | hy
          · exact hab
          · exact lt_trans hab (hb y hy)
      · split
        · next heq =>
          subst heq
          split
          · exact hp
          · exact List.pairwise_cons.mpr ⟨hb, hp⟩
        · next hab hne =>
          refine List.pairwise_cons.mpr ⟨fun y hy => ?_, ih (Memory.wf_tail h)⟩
          rcases Memory.mem_write hy with hy | ⟨rfl, _⟩
          · exact hb y hy
          · simp only; omega
  · rcases Memory.mem_write hc with hc | ⟨rfl, hv⟩
    · exact h.2 c hc
    · exact hv

/-- A write to a backed address keeps every entry backed. -/
theorem Memory.within_write {m : Memory} {cap a : Nat} (h : m.within cap) (ha : a < cap) (v : Byte) :
    (m.write a v).within cap := by
  intro c hc
  rcases Memory.mem_write hc with hc | ⟨rfl, _⟩
  · exact h c hc
  · exact ha

theorem Memory.ofDraw_cons (cap : Nat) (c : Host.Cell) (cells : List Host.Cell) :
    Memory.ofDraw cap (c :: cells) =
      if c.1 < cap then (Memory.ofDraw cap cells).write c.1 c.2 else Memory.ofDraw cap cells := rfl

/-- A reset's draw gives a canonical memory, whatever is drawn. -/
theorem Memory.wf_ofDraw (cap : Nat) (cells : List Host.Cell) : (Memory.ofDraw cap cells).wf := by
  induction cells with
  | nil => exact Memory.wf_nil
  | cons c cells ih => rw [Memory.ofDraw_cons]; split; exacts [Memory.wf_write ih _ _, ih]

/-- A reset's draw gives backed bytes only. -/
theorem Memory.within_ofDraw (cap : Nat) (cells : List Host.Cell) : (Memory.ofDraw cap cells).within cap := by
  induction cells with
  | nil => intro c hc; simp [Memory.ofDraw] at hc
  | cons c cells ih => rw [Memory.ofDraw_cons]; split; exacts [Memory.within_write ih ‹_› _, ih]

/-- Below the capacity a byte after a reset is the byte drawn, the first entry for its address. -/
theorem Memory.read_ofDraw (cap : Nat) (cells : List Host.Cell) (a : Nat) (ha : a < cap) :
    (Memory.ofDraw cap cells).read a = Memory.read cells a := by
  induction cells with
  | nil => rfl
  | cons c cells ih =>
    rw [Memory.ofDraw_cons, Memory.read_cons]
    split
    · rw [Memory.read_write (Memory.wf_ofDraw _ _), ih]
    · rw [ih, if_neg (by omega)]

/-- Writing in front of a memory that lists only higher addresses. -/
theorem Memory.write_of_lt {m : Memory} {a : Nat} {v : Byte} (h : ∀ c ∈ m, a < c.1) (hv : v ≠ unlisted) :
    m.write a v = (a, v) :: m := by
  cases m with
  | nil => simp [Memory.write, hv]
  | cons e m =>
    obtain ⟨b, x⟩ := e
    simp [Memory.write, hv, h (b, x) (by simp)]

/-- Two canonical memories that read alike everywhere are equal. -/
theorem Memory.ext_of_read {m n : Memory} (hm : m.wf) (hn : n.wf) (h : ∀ a, m.read a = n.read a) : m = n := by
  induction m generalizing n with
  | nil =>
    cases n with
    | nil => rfl
    | cons e n =>
      have := h e.1
      simp only [Memory.read, if_true] at this
      exact absurd this.symm (hn.2 e (by simp))
  | cons e m ih =>
    obtain ⟨a, x⟩ := e
    have ha := (List.pairwise_cons.mp hm.1).1
    have hx := hm.2 (a, x) (by simp)
    cases n with
    | nil =>
      have := h a
      simp only [Memory.read, if_true] at this
      exact absurd this hx
    | cons f n =>
      obtain ⟨b, y⟩ := f
      have hb := (List.pairwise_cons.mp hn.1).1
      have hy := hn.2 (b, y) (by simp)
      have hab : a = b := by
        rcases Nat.lt_trichotomy a b with hlt | heq | hgt
        · have := h a
          rw [Memory.read_cons, if_pos rfl, Memory.read_of_lt] at this
          · exact absurd this hx
          · intro c hc
            rcases List.mem_cons.mp hc with rfl | hc
            exacts [hlt, lt_trans hlt (hb c hc)]
        · exact heq
        · have := h b
          rw [Memory.read_cons (b := b), if_pos rfl, Memory.read_of_lt] at this
          · exact absurd this.symm hy
          · intro c hc
            rcases List.mem_cons.mp hc with rfl | hc
            exacts [hgt, lt_trans hgt (ha c hc)]
      subst hab
      have hxy : x = y := by simpa [Memory.read_cons] using h a
      subst hxy
      congr 1
      refine ih (Memory.wf_tail hm) (Memory.wf_tail hn) fun c => ?_
      by_cases hca : c = a
      · subst hca; rw [Memory.read_of_lt ha, Memory.read_of_lt hb]
      · simpa [Memory.read_cons, hca] using h c

end Sys2Proof.Machine
end

