-- ==== Sys2Proof/Laws/State.lean ====
section
/-! SUPPORT. One lemma per field for each shared update of State, so that no later proof unfolds a record update. -/

namespace Sys2Proof.Machine

/-! ## `raise FLAG` -/

@[simp] theorem State.raise_cv (s : State) (f : ErrFlag) : (s.raise f).cv = s.cv := by cases f <;> rfl

@[simp] theorem State.raise_regs (s : State) (f : ErrFlag) : (s.raise f).regs = s.regs := by cases f <;> rfl

@[simp] theorem State.raise_w (s : State) (f : ErrFlag) : (s.raise f).w = s.w := by cases f <;> rfl

@[simp] theorem State.raise_len (s : State) (f : ErrFlag) : (s.raise f).len = s.len := by cases f <;> rfl

@[simp] theorem State.raise_msg (s : State) (f : ErrFlag) : (s.raise f).msg = s.msg := by cases f <;> rfl

@[simp] theorem State.raise_blk (s : State) (f : ErrFlag) : (s.raise f).blk = s.blk := by cases f <;> rfl

@[simp] theorem State.raise_j (s : State) (f : ErrFlag) : (s.raise f).j = s.j := by cases f <;> rfl

@[simp] theorem State.raise_phase (s : State) (f : ErrFlag) : (s.raise f).phase = s.phase := by cases f <;> rfl

@[simp] theorem State.raise_done (s : State) (f : ErrFlag) : (s.raise f).done = s.done := by cases f <;> rfl

@[simp] theorem State.raise_lenErr (s : State) (f : ErrFlag) : (s.raise f).lenErr = (s.lenErr || decide (f = .lenErr)) := by
  cases f <;> simp [State.raise]

@[simp] theorem State.raise_cmdErr (s : State) (f : ErrFlag) : (s.raise f).cmdErr = (s.cmdErr || decide (f = .cmdErr)) := by
  cases f <;> simp [State.raise]

@[simp] theorem State.raise_wrErr (s : State) (f : ErrFlag) : (s.raise f).wrErr = (s.wrErr || decide (f = .wrErr)) := by
  cases f <;> simp [State.raise]

@[simp] theorem State.raise_cfg (s : State) (f : ErrFlag) : (s.raise f).cfg = s.cfg := by cases f <;> rfl

@[simp] theorem State.raise_program (s : State) (f : ErrFlag) : (s.raise f).program = s.program := by cases f <;> rfl

@[simp] theorem State.raise_results (s : State) (f : ErrFlag) : (s.raise f).results = s.results := by cases f <;> rfl

@[simp] theorem State.raise_turns (s : State) (f : ErrFlag) : (s.raise f).turns = s.turns := by cases f <;> rfl

/-! ## A read's answer -/

@[simp] theorem State.answer_cv (s : State) (v : Word) : (s.answer v).cv = s.cv := rfl

@[simp] theorem State.answer_regs (s : State) (v : Word) : (s.answer v).regs = s.regs := rfl

@[simp] theorem State.answer_w (s : State) (v : Word) : (s.answer v).w = s.w := rfl

@[simp] theorem State.answer_len (s : State) (v : Word) : (s.answer v).len = s.len := rfl

@[simp] theorem State.answer_msg (s : State) (v : Word) : (s.answer v).msg = s.msg := rfl

@[simp] theorem State.answer_blk (s : State) (v : Word) : (s.answer v).blk = s.blk := rfl

@[simp] theorem State.answer_j (s : State) (v : Word) : (s.answer v).j = s.j := rfl

@[simp] theorem State.answer_phase (s : State) (v : Word) : (s.answer v).phase = s.phase := rfl

@[simp] theorem State.answer_done (s : State) (v : Word) : (s.answer v).done = s.done := rfl

@[simp] theorem State.answer_lenErr (s : State) (v : Word) : (s.answer v).lenErr = s.lenErr := rfl

@[simp] theorem State.answer_cmdErr (s : State) (v : Word) : (s.answer v).cmdErr = s.cmdErr := rfl

@[simp] theorem State.answer_wrErr (s : State) (v : Word) : (s.answer v).wrErr = s.wrErr := rfl

@[simp] theorem State.answer_cfg (s : State) (v : Word) : (s.answer v).cfg = s.cfg := rfl

@[simp] theorem State.answer_program (s : State) (v : Word) : (s.answer v).program = s.program := rfl

@[simp] theorem State.answer_results (s : State) (v : Word) : (s.answer v).results = s.results ++ [v] := rfl

@[simp] theorem State.answer_turns (s : State) (v : Word) : (s.answer v).turns = s.turns := rfl

/-! ## A write to LEN -/

@[simp] theorem State.writeLen_cv (s : State) (v : Word) : (s.writeLen v).cv = s.cv := by
  unfold State.writeLen; split <;> simp

@[simp] theorem State.writeLen_regs (s : State) (v : Word) : (s.writeLen v).regs = s.regs := by
  unfold State.writeLen; split <;> simp

@[simp] theorem State.writeLen_w (s : State) (v : Word) : (s.writeLen v).w = s.w := by
  unfold State.writeLen; split <;> simp

@[simp] theorem State.writeLen_len (s : State) (v : Word) :
    (s.writeLen v).len = if s.phase = .idle then v else s.len := by
  unfold State.writeLen; split <;> simp

@[simp] theorem State.writeLen_msg (s : State) (v : Word) : (s.writeLen v).msg = s.msg := by
  unfold State.writeLen; split <;> simp

@[simp] theorem State.writeLen_blk (s : State) (v : Word) : (s.writeLen v).blk = s.blk := by
  unfold State.writeLen; split <;> simp

@[simp] theorem State.writeLen_j (s : State) (v : Word) : (s.writeLen v).j = s.j := by
  unfold State.writeLen; split <;> simp

@[simp] theorem State.writeLen_phase (s : State) (v : Word) : (s.writeLen v).phase = s.phase := by
  unfold State.writeLen; split <;> simp

@[simp] theorem State.writeLen_done (s : State) (v : Word) : (s.writeLen v).done = s.done := by
  unfold State.writeLen; split <;> simp

@[simp] theorem State.writeLen_lenErr (s : State) (v : Word) : (s.writeLen v).lenErr = s.lenErr := by
  unfold State.writeLen; split <;> simp

@[simp] theorem State.writeLen_cmdErr (s : State) (v : Word) : (s.writeLen v).cmdErr = s.cmdErr := by
  unfold State.writeLen; split <;> simp

@[simp] theorem State.writeLen_wrErr (s : State) (v : Word) :
    (s.writeLen v).wrErr = (s.wrErr || s.phase != .idle) := by
  unfold State.writeLen; split <;> simp_all

@[simp] theorem State.writeLen_cfg (s : State) (v : Word) : (s.writeLen v).cfg = s.cfg := by
  unfold State.writeLen; split <;> simp

@[simp] theorem State.writeLen_program (s : State) (v : Word) : (s.writeLen v).program = s.program := by
  unfold State.writeLen; split <;> simp

@[simp] theorem State.writeLen_results (s : State) (v : Word) : (s.writeLen v).results = s.results := by
  unfold State.writeLen; split <;> simp

@[simp] theorem State.writeLen_turns (s : State) (v : Word) : (s.writeLen v).turns = s.turns := by
  unfold State.writeLen; split <;> simp

/-! ## A write to the message memory -/

@[simp] theorem State.writeMessage_cv (s : State) (a : Word) (b : Byte) :
    (s.writeMessage a b).cv = s.cv := by
  unfold State.writeMessage; repeat' split
  all_goals simp

@[simp] theorem State.writeMessage_regs (s : State) (a : Word) (b : Byte) :
    (s.writeMessage a b).regs = s.regs := by
  unfold State.writeMessage; repeat' split
  all_goals simp

@[simp] theorem State.writeMessage_w (s : State) (a : Word) (b : Byte) :
    (s.writeMessage a b).w = s.w := by
  unfold State.writeMessage; repeat' split
  all_goals simp

@[simp] theorem State.writeMessage_len (s : State) (a : Word) (b : Byte) :
    (s.writeMessage a b).len = s.len := by
  unfold State.writeMessage; repeat' split
  all_goals simp

@[simp] theorem State.writeMessage_msg (s : State) (a : Word) (b : Byte) :
    (s.writeMessage a b).msg =
      if a.toNat < s.cfg.msgCap ∧ s.phase = .idle then s.msg.write a.toNat b else s.msg := by
  unfold State.writeMessage; split
  · rw [if_neg (by omega)]
  · split <;> simp_all

@[simp] theorem State.writeMessage_blk (s : State) (a : Word) (b : Byte) :
    (s.writeMessage a b).blk = s.blk := by
  unfold State.writeMessage; repeat' split
  all_goals simp

@[simp] theorem State.writeMessage_j (s : State) (a : Word) (b : Byte) :
    (s.writeMessage a b).j = s.j := by
  unfold State.writeMessage; repeat' split
  all_goals simp

@[simp] theorem State.writeMessage_phase (s : State) (a : Word) (b : Byte) :
    (s.writeMessage a b).phase = s.phase := by
  unfold State.writeMessage; repeat' split
  all_goals simp

@[simp] theorem State.writeMessage_done (s : State) (a : Word) (b : Byte) :
    (s.writeMessage a b).done = s.done := by
  unfold State.writeMessage; repeat' split
  all_goals simp

@[simp] theorem State.writeMessage_lenErr (s : State) (a : Word) (b : Byte) :
    (s.writeMessage a b).lenErr = s.lenErr := by
  unfold State.writeMessage; repeat' split
  all_goals simp

@[simp] theorem State.writeMessage_cmdErr (s : State) (a : Word) (b : Byte) :
    (s.writeMessage a b).cmdErr = s.cmdErr := by
  unfold State.writeMessage; repeat' split
  all_goals simp

@[simp] theorem State.writeMessage_wrErr (s : State) (a : Word) (b : Byte) :
    (s.writeMessage a b).wrErr = (s.wrErr || (decide (a.toNat < s.cfg.msgCap) && s.phase != .idle)) := by
  unfold State.writeMessage; split
  · simp [Nat.not_lt.mpr ‹_›]
  · split <;> simp_all

@[simp] theorem State.writeMessage_cfg (s : State) (a : Word) (b : Byte) :
    (s.writeMessage a b).cfg = s.cfg := by
  unfold State.writeMessage; repeat' split
  all_goals simp

@[simp] theorem State.writeMessage_program (s : State) (a : Word) (b : Byte) :
    (s.writeMessage a b).program = s.program := by
  unfold State.writeMessage; repeat' split
  all_goals simp

@[simp] theorem State.writeMessage_results (s : State) (a : Word) (b : Byte) :
    (s.writeMessage a b).results = s.results := by
  unfold State.writeMessage; repeat' split
  all_goals simp

@[simp] theorem State.writeMessage_turns (s : State) (a : Word) (b : Byte) :
    (s.writeMessage a b).turns = s.turns := by
  unfold State.writeMessage; repeat' split
  all_goals simp

/-! ## The reset event -/

@[simp] theorem State.resetEvent_cv (s : State) (d : ResetDraw) : (s.resetEvent d).cv = d.cv := rfl

@[simp] theorem State.resetEvent_regs (s : State) (d : ResetDraw) : (s.resetEvent d).regs = d.regs := rfl

@[simp] theorem State.resetEvent_w (s : State) (d : ResetDraw) : (s.resetEvent d).w = d.w := rfl

@[simp] theorem State.resetEvent_len (s : State) (d : ResetDraw) : (s.resetEvent d).len = 0 := rfl

@[simp] theorem State.resetEvent_msg (s : State) (d : ResetDraw) : (s.resetEvent d).msg = Memory.ofDraw s.cfg.msgCap d.msg := rfl

@[simp] theorem State.resetEvent_blk (s : State) (d : ResetDraw) : (s.resetEvent d).blk = 0 := rfl

@[simp] theorem State.resetEvent_j (s : State) (d : ResetDraw) : (s.resetEvent d).j = 0 := rfl

@[simp] theorem State.resetEvent_phase (s : State) (d : ResetDraw) : (s.resetEvent d).phase = .idle := rfl

@[simp] theorem State.resetEvent_done (s : State) (d : ResetDraw) : (s.resetEvent d).done = false := rfl

@[simp] theorem State.resetEvent_lenErr (s : State) (d : ResetDraw) : (s.resetEvent d).lenErr = false := rfl

@[simp] theorem State.resetEvent_cmdErr (s : State) (d : ResetDraw) : (s.resetEvent d).cmdErr = false := rfl

@[simp] theorem State.resetEvent_wrErr (s : State) (d : ResetDraw) : (s.resetEvent d).wrErr = false := rfl

@[simp] theorem State.resetEvent_cfg (s : State) (d : ResetDraw) : (s.resetEvent d).cfg = s.cfg := rfl

@[simp] theorem State.resetEvent_program (s : State) (d : ResetDraw) : (s.resetEvent d).program = s.program := rfl

@[simp] theorem State.resetEvent_results (s : State) (d : ResetDraw) : (s.resetEvent d).results = s.results := rfl

@[simp] theorem State.resetEvent_turns (s : State) (d : ResetDraw) : (s.resetEvent d).turns = s.turns := rfl

end Sys2Proof.Machine
end

