-- ==== Sys2Proof/Laws/Effect.lean ====
section
/-! SUPPORT. Everything an instruction can do, said once: `exec_effect`. Statements about all instructions are proved
by cases on `Effect` and do not unfold a meaning. -/

namespace Sys2Proof.Machine

/-- The instruction `i` performs the command `c`: it is the command, or the REG_WR to CMD that carries it (R190). -/
def Performs (i : Instr) (c : Command) : Prop :=
  i = c.toInstr ∨ ∃ v, i = .regWr cmdOffset v ∧ decodeCmd v = c

theorem performs_start {i : Instr} : Performs i .start ↔ i = .start ∨ i = .regWr 0 1 := by
  simp [Performs, decodeCmd_start, Command.toInstr, cmdOffset]

theorem performs_clear {i : Instr} : Performs i .clear ↔ i = .clear ∨ i = .regWr 0 2 := by
  simp [Performs, decodeCmd_clear, Command.toInstr, cmdOffset]

theorem performCmd_eq_exec (v : Word) (s : State) : performCmd v s = exec (decodeCmd v).toInstr s := by
  unfold performCmd; cases decodeCmd v <;> rfl

/-- What one instruction does to a state when it answers a next state. -/
inductive Effect (s : State) : Instr → State → Prop where
  | nop {i} (hi : Performs i .nop) : Effect s i s
  | idle (hp : s.phase = .idle) : Effect s .idle s
  | writeIgnored {off v} (hl : isRegOffset off = true) (hc : registerAt off ≠ .cmd) (hn : registerAt off ≠ .len) :
      Effect s (.regWr off v) s
  | byteDropped {a v} (ha : s.cfg.msgCap ≤ a.toNat) : Effect s (.msgWr a v) s
  | readRegister {off} (hl : isRegOffset off = true) :
      Effect s (.regRd off) (s.answer (s.readRegister (registerAt off)))
  | readByte {a} : Effect s (.msgRd a) (s.answer (s.readMessage a))
  | illegal {i v} (hi : Performs i (.illegal v)) : Effect s i (s.raise .cmdErr)
  | startBusy {i} (hi : Performs i .start) (hp : s.phase ≠ .idle) : Effect s i (s.raise .cmdErr)
  | startTooLong {i} (hi : Performs i .start) (hp : s.phase = .idle) (hl : s.cfg.msgCap < s.len.toNat) :
      Effect s i { s with done := false, lenErr := true }
  | startJob {i} (hi : Performs i .start) (hp : s.phase = .idle) (hl : s.len.toNat ≤ s.cfg.msgCap) :
      Effect s i { s with done := false, lenErr := false, cv := s.cfg.iv, blk := 0, j := 0, phase := .expand }
  | clear {i} (hi : Performs i .clear) :
      Effect s i { s with
        phase := .idle, j := 0, blk := 0, done := false, lenErr := false, cmdErr := false, wrErr := false }
  | lenBusy {v} (hp : s.phase ≠ .idle) : Effect s (.regWr lenOffset v) (s.raise .wrErr)
  | lenSet {v} (hp : s.phase = .idle) : Effect s (.regWr lenOffset v) { s with len := v }
  | byteBusy {a v} (ha : a.toNat < s.cfg.msgCap) (hp : s.phase ≠ .idle) : Effect s (.msgWr a v) (s.raise .wrErr)
  | byteSet {a v} (ha : a.toNat < s.cfg.msgCap) (hp : s.phase = .idle) :
      Effect s (.msgWr a v) { s with msg := s.msg.write a.toNat (dataByte v) }
  | expand (hp : s.phase = .expand) (hl : s.len.toNat ≤ s.cfg.msgCap) (hb : s.blk.toNat < blockCount s.len.toNat) :
      Effect s .expand { s with
        w := expandBlock (padBlock s.msg s.len.toNat s.blk.toNat), regs := s.cv, j := 0, phase := .round }
  | round (hp : s.phase = .round) (hj : s.j ≠ 63) :
      Effect s .round { s with regs := roundStep s.cfg s.w s.j s.regs, j := s.j + 1 }
  | lastRound (hp : s.phase = .round) (hj : s.j = 63) :
      Effect s .round { s with regs := roundStep s.cfg s.w s.j s.regs, phase := .feed }
  | feedMore (hp : s.phase = .feed) (hb : (s.blk + 1).toNat ≠ blockCount s.len.toNat) :
      Effect s .feed { s with cv := feedForward s.regs s.cv, blk := s.blk + 1, phase := .expand }
  | feedLast (hp : s.phase = .feed) (hb : (s.blk + 1).toNat = blockCount s.len.toNat) :
      Effect s .feed { s with cv := feedForward s.regs s.cv, blk := s.blk + 1, phase := .idle, done := true }

theorem whenPhase_eq_next {p : Phase} {s t : State} {o : Host.Outcome State Fault Refusal} :
    whenPhase p s o = .next t ↔ s.phase = p ∧ o = .next t := by
  unfold whenPhase; split <;> simp_all

theorem atLegalOffset_eq_next {off : Word} {t : State} {o : Host.Outcome State Fault Refusal} :
    atLegalOffset off o = .next t ↔ isRegOffset off = true ∧ o = .next t := by
  rw [← offsetProblem_eq_none]; unfold atLegalOffset; split <;> simp_all

theorem execStart_effect {i : Instr} {s t : State} (hi : Performs i .start) (h : execStart s = .next t) :
    Effect s i t := by
  simp only [execStart] at h
  split at h
  · cases h; exact .startBusy hi ‹_›
  · next hp =>
    rw [not_not] at hp
    split at h
    · cases h; exact .startTooLong hi hp ‹_›
    · cases h; exact .startJob hi hp (by omega)

theorem execClear_effect {i : Instr} {s t : State} (hi : Performs i .clear) (h : execClear s = .next t) :
    Effect s i t := by
  cases h; exact .clear hi

theorem performCmd_effect {v : Word} {s t : State} (h : performCmd v s = .next t) :
    Effect s (.regWr cmdOffset v) t := by
  unfold performCmd at h
  split at h
  · cases h; exact .nop (.inr ⟨v, rfl, ‹_›⟩)
  · exact execStart_effect (.inr ⟨v, rfl, ‹_›⟩) h
  · exact execClear_effect (.inr ⟨v, rfl, ‹_›⟩) h
  · cases h; exact .illegal (.inr ⟨v, rfl, ‹_›⟩)

theorem execRegWr_effect {off v : Word} {s t : State} (h : execRegWr off v s = .next t) :
    Effect s (.regWr off v) t := by
  obtain ⟨hl, h⟩ := atLegalOffset_eq_next.mp h
  split at h
  · next hr => rw [registerAt_cmd.mp hr]; exact performCmd_effect h
  · next hr =>
    rw [registerAt_len.mp hr]
    simp only [State.writeLen] at h
    split at h
    · cases h; exact .lenSet ‹_›
    · cases h; exact .lenBusy ‹_›
  all_goals cases h; exact .writeIgnored hl (by simp_all) (by simp_all)

theorem execMsgWr_effect {a v : Word} {s t : State} (h : execMsgWr a v s = .next t) : Effect s (.msgWr a v) t := by
  simp only [execMsgWr, State.writeMessage] at h
  split at h
  · cases h; exact .byteDropped ‹_›
  · next ha =>
    split at h
    · cases h; exact .byteBusy (by omega) ‹_›
    · next hp => cases h; exact .byteSet (by omega) (not_not.mp hp)

theorem execExpand_effect {s t : State} (h : execExpand s = .next t) : Effect s .expand t := by
  obtain ⟨hp, h⟩ := whenPhase_eq_next.mp h
  split at h
  · cases h
  · split at h
    · cases h
    · cases h; exact .expand hp (by omega) (by omega)

theorem execRound_effect {s t : State} (h : execRound s = .next t) : Effect s .round t := by
  obtain ⟨hp, h⟩ := whenPhase_eq_next.mp h
  split at h
  · cases h; exact .lastRound hp ‹_›
  · cases h; exact .round hp ‹_›

theorem execFeed_effect {s t : State} (h : execFeed s = .next t) : Effect s .feed t := by
  obtain ⟨hp, h⟩ := whenPhase_eq_next.mp h
  dsimp only at h
  split at h
  · cases h; exact .feedLast hp ‹_›
  · cases h; exact .feedMore hp ‹_›

/-- Whatever an instruction does when it answers a next state is one of the effects. -/
theorem exec_effect {i : Instr} {s t : State} (h : exec i s = .next t) : Effect s i t := by
  cases i with
  | regRd off =>
    obtain ⟨hl, h⟩ := atLegalOffset_eq_next.mp h
    cases h; exact .readRegister hl
  | regWr off v => exact execRegWr_effect h
  | msgRd a => cases h; exact .readByte
  | msgWr a v => exact execMsgWr_effect h
  | nop => cases h; exact .nop (.inl rfl)
  | start => exact execStart_effect (.inl rfl) h
  | clear => exact execClear_effect (.inl rfl) h
  | illegal v => cases h; exact .illegal (v := v) (.inl rfl)
  | idle => obtain ⟨hp, h⟩ := whenPhase_eq_next.mp h; cases h; exact .idle hp
  | expand => exact execExpand_effect h
  | round => exact execRound_effect h
  | feed => exact execFeed_effect h

end Sys2Proof.Machine
end

