-- ==== Sys2Proof/Laws/Step.lean ====
section
/-! SUPPORT. What a step can do, said once, and the induction over steps packaged once. -/

namespace Sys2Proof.Machine

/-- Whose turn it is when a turn is listed. -/
theorem State.turnNow_cons {s : State} {t : Turn} {rest : List Turn} (h : s.turns = t :: rest) : s.turnNow = t := by
  simp [State.turnNow, h]

/-- Whose turn it is when none is listed (R271). -/
theorem State.turnNow_nil {s : State} (h : s.turns = []) : s.turnNow = if s.phase = .idle then .host else .core := by
  simp [State.turnNow, h]

/-- A listed core turn. -/
theorem step_core {s : State} {rest : List Turn} (h : s.turns = .core :: rest) :
    step s = coreTurn { s with turns := rest } := by
  simp [step, nextTurn, State.turnNow_cons h, h]

/-- A listed host turn. -/
theorem step_host {s : State} {rest : List Turn} (h : s.turns = .host :: rest) :
    step s = hostTurn { s with turns := rest } := by
  simp [step, nextTurn, State.turnNow_cons h, h]

/-- A listed reset turn. -/
theorem step_reset {s : State} {d : ResetDraw} {rest : List Turn} (h : s.turns = .reset d :: rest) :
    step s = .next (({ s with turns := rest } : State).resetEvent d) := by
  simp [step, nextTurn, State.turnNow_cons h, h]

theorem State.tail_nil {s : State} (h : s.turns = []) : ({ s with turns := s.turns.tail } : State) = s := by
  rw [show s.turns.tail = s.turns by rw [h]; rfl]

/-- With no turn listed and the core idle the host goes on. -/
theorem step_idle {s : State} (h : s.turns = []) (hp : s.phase = .idle) : step s = hostTurn s := by
  simp only [step, nextTurn, State.tail_nil h, State.turnNow_nil h, if_pos hp]

/-- With no turn listed a busy core steps (R271). -/
theorem step_busy {s : State} (h : s.turns = []) (hp : s.phase ≠ .idle) : step s = exec s.phase.toInstr s := by
  simp only [step, nextTurn, State.tail_nil h, State.turnNow_nil h, if_neg hp, coreTurn]

/-- A host turn performs one instruction, having taken its line off the program, or changes nothing. -/
theorem hostTurn_next {s t : State} (h : hostTurn s = .next t) :
    t = s ∨ ∃ ps i, exec i { s with program := ps } = .next t := by
  unfold hostTurn at h
  split at h
  · cases h; exact .inl rfl
  · next x rest _ =>
    unfold performTxn at h
    split at h
    · next i _ => exact .inr ⟨rest, i, h⟩
    · cases h
  · next rest _ =>
    split at h
    · exact .inr ⟨rest, _, h⟩
    · cases h; exact .inl rfl

/-- A step takes the turn and the line it uses off the lists, and then nothing happens, or one instruction is
performed, or the core is reset. -/
theorem step_next {s t : State} (h : step s = .next t) :
    ∃ ts ps, t = { s with turns := ts, program := ps } ∨
      (∃ i, exec i { s with turns := ts, program := ps } = .next t) ∨
      ∃ d, t = ({ s with turns := ts, program := ps } : State).resetEvent d := by
  unfold step nextTurn at h
  dsimp only at h
  split at h
  · exact ⟨s.turns.tail, s.program, .inr (.inl ⟨_, h⟩)⟩
  · rcases hostTurn_next h with rfl | ⟨ps, i, h⟩
    · exact ⟨s.turns.tail, s.program, .inl rfl⟩
    · exact ⟨s.turns.tail, ps, .inr (.inl ⟨i, h⟩)⟩
  · next d _ => cases h; exact ⟨s.turns.tail, s.program, .inr (.inr ⟨d, rfl⟩)⟩

/-- What does not depend on the outside world's lists, and every instruction and every reset keep, a step keeps. -/
theorem step_keeps {P : State → Prop}
    (hlists : ∀ s ts ps, P s → P { s with turns := ts, program := ps })
    (hexec : ∀ i s t, P s → Effect s i t → P t)
    (hreset : ∀ s d, P s → P (s.resetEvent d)) {s t : State} (hs : P s) (h : step s = .next t) : P t := by
  obtain ⟨ts, ps, rfl | ⟨i, h⟩ | ⟨d, rfl⟩⟩ := step_next h
  · exact hlists s ts ps hs
  · exact hexec i _ t (hlists s ts ps hs) (exec_effect h)
  · exact hreset _ d (hlists s ts ps hs)

/-- The model's own run is the host's. -/
theorem run_eq_core_run (k : Nat) (s : State) : run k s = core.run k s := by
  induction k generalizing s with
  | zero => rfl
  | succ k ih =>
    cases h : step s with
    | next t =>
      have h' : core.step s = .next t := h
      simp only [run, Host.Core.run, h, h', ih t]; rfl
    | fault r =>
      have h' : core.step s = .fault r := h
      simp only [run, Host.Core.run, h, h']; rfl
    | refused r =>
      have h' : core.step s = .refused r := h
      simp only [run, Host.Core.run, h, h']; rfl

/-- A run of `a + b` steps goes on from where its first `a` steps end. -/
theorem run_add {a : Nat} {s t : State} (h : run a s = .next t) (b : Nat) : run (a + b) s = run b t := by
  induction a generalizing s with
  | zero => cases h; simp
  | succ a ih =>
    rw [Nat.succ_add, run]
    rw [run] at h
    split at h
    · next u hu => exact ih h
    · cases h
    · cases h

/-- What a step keeps, a run keeps. -/
theorem run_keeps {P : State → Prop} (hstep : ∀ s t, P s → step s = .next t → P t) {k : Nat} {s t : State}
    (hs : P s) (h : run k s = .next t) : P t := by
  induction k generalizing s with
  | zero => cases h; exact hs
  | succ k ih =>
    rw [run] at h
    split at h
    · next u hu => exact ih (hstep s u hs hu) h
    · cases h
    · cases h

end Sys2Proof.Machine
end

