-- ==== Sys2Proof/Laws/Executions.lean ====
section
/-! SUPPORT. What adding to the outside world's lists leaves alone, and the induction over an infinite execution packaged
once. -/

namespace Sys2Proof.Machine

@[simp] theorem State.supplied_cv (s : State) (i : Supply) : (s.supplied i).cv = s.cv := rfl

@[simp] theorem State.supplied_regs (s : State) (i : Supply) : (s.supplied i).regs = s.regs := rfl

@[simp] theorem State.supplied_w (s : State) (i : Supply) : (s.supplied i).w = s.w := rfl

@[simp] theorem State.supplied_len (s : State) (i : Supply) : (s.supplied i).len = s.len := rfl

@[simp] theorem State.supplied_msg (s : State) (i : Supply) : (s.supplied i).msg = s.msg := rfl

@[simp] theorem State.supplied_blk (s : State) (i : Supply) : (s.supplied i).blk = s.blk := rfl

@[simp] theorem State.supplied_j (s : State) (i : Supply) : (s.supplied i).j = s.j := rfl

@[simp] theorem State.supplied_phase (s : State) (i : Supply) : (s.supplied i).phase = s.phase := rfl

@[simp] theorem State.supplied_done (s : State) (i : Supply) : (s.supplied i).done = s.done := rfl

@[simp] theorem State.supplied_lenErr (s : State) (i : Supply) : (s.supplied i).lenErr = s.lenErr := rfl

@[simp] theorem State.supplied_cmdErr (s : State) (i : Supply) : (s.supplied i).cmdErr = s.cmdErr := rfl

@[simp] theorem State.supplied_wrErr (s : State) (i : Supply) : (s.supplied i).wrErr = s.wrErr := rfl

@[simp] theorem State.supplied_cfg (s : State) (i : Supply) : (s.supplied i).cfg = s.cfg := rfl

@[simp] theorem State.supplied_program (s : State) (i : Supply) :
    (s.supplied i).program = s.program ++ i.program := rfl

@[simp] theorem State.supplied_results (s : State) (i : Supply) : (s.supplied i).results = s.results := rfl

@[simp] theorem State.supplied_turns (s : State) (i : Supply) : (s.supplied i).turns = s.turns ++ i.turns := rfl

/-- A listed turn stays the next one when more are added. -/
theorem State.turnNow_supplied {s : State} (h : s.turns ≠ []) (i : Supply) : (s.supplied i).turnNow = s.turnNow := by
  obtain ⟨t, rest, ht⟩ := List.exists_cons_of_ne_nil h
  rw [State.turnNow_cons ht]
  exact State.turnNow_cons (rest := rest ++ i.turns) (by simp [ht])

theorem Execution.step_before (x : Execution) (n : Nat) : step (x.before n) = .next (x.state (n + 1)) := x.next n

/-- In an idle state of an execution the core takes no step (R205). -/
theorem Execution.not_coreAt_of_idle (x : Execution) {n : Nat} (h : (x.state n).phase = .idle) :
    (x.before n).turnNow ≠ .core :=
  fun hc => (x.moves n).1 hc h

/-- What holds at the start of an execution, and what neither the outside world's lists nor a step can break, holds in
every state of it. -/
theorem Execution.keeps {P : State → Prop} (hlists : ∀ s i, P s → P (s.supplied i))
    (hstep : ∀ s t, P s → step s = .next t → P t) (x : Execution) (h : P (x.state 0)) (n : Nat) : P (x.state n) := by
  induction n with
  | zero => exact h
  | succ n ih => exact hstep _ _ (hlists _ (x.supply n) ih) (x.next n)

theorem Execution.coreSteps_succ (x : Execution) (n : Nat) :
    x.coreSteps (n + 1) = x.coreSteps n + if x.coreAt n = true then 1 else 0 := by
  by_cases h : x.coreAt n = true <;> simp [Execution.coreSteps, List.range_succ, List.filter_append, h]

end Sys2Proof.Machine
end

