-- ==== Sys2Proof/Laws/Padding.lean ====
section
/-! SUPPORT. What the Padding Unit answers, said once: the counts by the length's remainder, and each padded byte. -/

namespace Sys2Proof.Machine

/-- k in its two cases (R106). -/
theorem zeroBits_cases (l : Nat) :
    zeroBits l = if l % 64 ≤ 55 then 447 - 8 * (l % 64 : Nat) else 959 - 8 * (l % 64 : Nat) := by
  unfold zeroBits bitLength; split <;> push_cast <;> omega

/-- Z(L) in its two cases. -/
theorem zeroBytes_cases (l : Nat) : zeroBytes l = if l % 64 ≤ 55 then 55 - l % 64 else 119 - l % 64 := by
  unfold zeroBytes; rw [zeroBits_cases]; split <;> omega

/-- The padded length in bytes is a whole number of blocks (R102). -/
theorem padded_length (l : Nat) : l + 1 + zeroBytes l + 8 = 64 * blockCount l := by
  rw [zeroBytes_cases]; unfold blockCount; split <;> omega

theorem length_messageBytes (m : Memory) (l : Nat) : (messageBytes m l).length = l := by simp [messageBytes]

theorem length_pad (m : List Byte) : (pad m).length = 64 * blockCount m.length := by
  have := padded_length m.length
  simp [pad, lengthField, be64Bytes]; omega

theorem getElem_padBlock (m : Memory) (l i k : Nat) (hk : k < 64) :
    (padBlock m l i)[k] = paddedByte m l (64 * i + k) := by
  simp [padBlock]

/-- PB(p) is the padded message's byte at offset p (R103, R105). -/
theorem paddedByte_eq (m : Memory) (l p : Nat) (hp : p < 64 * blockCount l) :
    (pad (messageBytes m l))[p]? = some (paddedByte m l p) := by
  have hL := padded_length l
  have hm := length_messageBytes m l
  unfold paddedByte pad
  rw [hm]
  split
  · next h =>
    rw [List.append_assoc, List.append_assoc, List.getElem?_append_left (by omega)]
    simp [messageBytes, h]
  · split
    · next h =>
      subst h
      rw [List.append_assoc, List.append_assoc, List.getElem?_append_right (by omega), hm]; simp
    · split
      · rw [List.getElem?_append_left
            (by simp only [List.length_append, hm, List.length_replicate, List.length_singleton]; omega),
          List.getElem?_append_right (by simp only [List.length_append, hm, List.length_singleton]; omega)]
        simp only [List.length_append, hm, List.length_singleton, List.getElem?_replicate]
        rw [if_pos (by omega)]
      · rw [List.getElem?_append_right
            (by simp only [List.length_append, hm, List.length_replicate, List.length_singleton]; omega)]
        have e : p - (messageBytes m l ++ [0x80] ++ List.replicate (zeroBytes l) 0x00).length
            = p - (64 * blockCount l - 8) := by
          simp only [List.length_append, hm, List.length_replicate, List.length_singleton]; omega
        have hk : p - (64 * blockCount l - 8) < (lengthField l).length := by simp [lengthField, be64Bytes]; omega
        rw [e, List.getD_eq_getElem?_getD, List.getElem?_eq_getElem hk]; rfl

end Sys2Proof.Machine
end

