-- ==== Sys2Proof/Laws/PerInstr.lean ====
section
/-! SUPPORT. The per-instruction family TableRow: the encoding of a well-formed instruction is of the form its row of
opcode_table.json names, and the field the row's match and mask apply to matches that row and no row before it. -/

namespace Sys2Proof.Laws.TableRow

/-- The three formats of opcode_table.json. -/
inductive Format where
  | hosttxn
  | cmd
  | phase
  deriving DecidableEq, Repr

/-- A row of opcode_table.json: its format, match and mask. -/
structure Row where
  format : Format
  matchValue : Nat
  mask : Nat
  deriving DecidableEq, Repr

/-- The row of each instruction, as the table has it. -/
def row : Instr → Row
  | .regRd _ => ⟨.hosttxn, 0x0, 0x3⟩
  | .regWr _ _ => ⟨.hosttxn, 0x1, 0x3⟩
  | .msgRd _ => ⟨.hosttxn, 0x2, 0x3⟩
  | .msgWr _ _ => ⟨.hosttxn, 0x3, 0x3⟩
  | .nop => ⟨.cmd, 0x00000000, 0xFFFFFFFF⟩
  | .start => ⟨.cmd, 0x00000001, 0xFFFFFFFF⟩
  | .clear => ⟨.cmd, 0x00000002, 0xFFFFFFFF⟩
  | .illegal _ => ⟨.cmd, 0x00000000, 0x00000000⟩
  | .idle => ⟨.phase, 0x0, 0x3⟩
  | .expand => ⟨.phase, 0x1, 0x3⟩
  | .round => ⟨.phase, 0x2, 0x3⟩
  | .feed => ⟨.phase, 0x3, 0x3⟩

/-- The rows of higher priority than a row: ILLEGAL is the table's lowest. -/
def rowsBefore : Instr → List Row
  | .illegal _ => [row .nop, row .start, row .clear]
  | _ => []

/-- The format of an encoded form. -/
def format : Encoded → Format
  | .hosttxn _ => .hosttxn
  | .cmd _ => .cmd
  | .phase _ => .phase

/-- The field a row's match and mask apply to: KIND of a HOSTTXN, the whole word of a CMD, the code of a PHASE. -/
def matched : Encoded → Nat
  | .hosttxn t => t.kind.toNat
  | .cmd v => v.toNat
  | .phase code => code.toNat

/-- An encoded form matches a row. -/
def Matches (e : Encoded) (r : Row) : Prop :=
  format e = r.format ∧ matched e &&& r.mask = r.matchValue

/-- A well-formed instruction's encoding matches the instruction's own row and no row before it. -/
def Statement (i : Instr) : Prop :=
  i.wf = true → Matches (encode i) (row i) ∧ ∀ r ∈ rowsBefore i, ¬ Matches (encode i) r

theorem regRd (off : Word) : Statement (.regRd off) :=
  fun _ => ⟨⟨rfl, (by decide : (0 : BitVec 2).toNat &&& 0x3 = 0)⟩, by simp [rowsBefore]⟩

theorem regWr (off v : Word) : Statement (.regWr off v) :=
  fun _ => ⟨⟨rfl, (by decide : (1 : BitVec 2).toNat &&& 0x3 = 1)⟩, by simp [rowsBefore]⟩

theorem msgRd (a : Word) : Statement (.msgRd a) :=
  fun _ => ⟨⟨rfl, (by decide : (2 : BitVec 2).toNat &&& 0x3 = 2)⟩, by simp [rowsBefore]⟩

theorem msgWr (a v : Word) : Statement (.msgWr a v) :=
  fun _ => ⟨⟨rfl, (by decide : (3 : BitVec 2).toNat &&& 0x3 = 3)⟩, by simp [rowsBefore]⟩

theorem nop : Statement .nop := fun _ => ⟨⟨rfl, rfl⟩, by simp [rowsBefore]⟩

theorem start : Statement .start := fun _ => ⟨⟨rfl, rfl⟩, by simp [rowsBefore]⟩

theorem clear : Statement .clear := fun _ => ⟨⟨rfl, rfl⟩, by simp [rowsBefore]⟩

theorem illegal (v : Word) : Statement (.illegal v) := by
  intro h
  have hm : v.toNat &&& 0xFFFFFFFF = v.toNat := by
    rw [show (0xFFFFFFFF : Nat) = 2 ^ 32 - 1 from rfl, Nat.and_two_pow_sub_one_eq_mod, Nat.mod_eq_of_lt v.isLt]
  refine ⟨⟨rfl, Nat.and_zero _⟩, ?_⟩
  simp only [Instr.wf, isIllegalWord, bne_iff_ne, ne_eq, Bool.and_eq_true, ← BitVec.toNat_inj] at h
  simp only [rowsBefore, row, encode, Matches, matched, List.mem_cons, List.not_mem_nil, or_false,
    forall_eq_or_imp, forall_eq, hm]
  exact ⟨fun e => h.1.1 e.2, fun e => h.1.2 e.2, fun e => h.2 e.2⟩

theorem idle : Statement .idle := fun _ => ⟨⟨rfl, rfl⟩, by simp [rowsBefore]⟩

theorem expand : Statement .expand := fun _ => ⟨⟨rfl, rfl⟩, by simp [rowsBefore]⟩

theorem round : Statement .round := fun _ => ⟨⟨rfl, rfl⟩, by simp [rowsBefore]⟩

theorem feed : Statement .feed := fun _ => ⟨⟨rfl, rfl⟩, by simp [rowsBefore]⟩

end Sys2Proof.Laws.TableRow
end

