-- ==== Sys2Proof/Tests/Slice0.lean ====
section
/-! SUPPORT. Tests of the model against the spec's words and the vectors of 95_test_vectors.md, and for each obligation
with hypotheses a witness that meets them. Every expected value comes from the spec. -/

namespace Sys2Proof.Tests

open Sys2Proof.Machine

/-- The state a step or a meaning answers, if it answers one. -/
def after (o : Host.Outcome State Fault Refusal) : Option State :=
  match o with
  | .next t => some t
  | .fault _ => none
  | .refused _ => none

/-- Idle, with "abc" in the message memory and LEN = 3 (V-SEQ, P1). -/
def abc : State := { State.reset with msg := [(0, 0x61), (1, 0x62), (2, 0x63)], len := 3 }

/-- "abc" just after START. -/
def abcStarted : State := { abc with cv := defaultIV, phase := .expand }

/-- "abc" in ROUND with the given round counter and working registers. -/
def abcRound (j : BitVec 6) (r : Words8) : State :=
  { abcStarted with phase := .round, j := j, regs := r, w := expandBlock (padBlock abc.msg 3 0) }

/-- "abc" in FEED, with the working registers its 64 rounds leave. -/
def abcFeed : State :=
  { abcRound 63 (rounds defaultConfig (expandBlock (padBlock abc.msg 3 0)) 64 defaultIV) with phase := .feed }

/-- The start state of V-CMD rows 5 to 9, 23 and 24: ROUND, j = 5, flags 0. -/
def midJob : State := { abcStarted with phase := .round, j := 5 }

/-! ## Well-formedness: each check refuses an ill-formed term -/

theorem test_wf_misaligned_read : (Instr.regRd 0x002).wf = false := by decide

theorem test_wf_offset_too_high_read : (Instr.regRd 0x1000).wf = false := by decide

theorem test_wf_misaligned_write : (Instr.regWr 0x00A 0).wf = false := by decide

theorem test_wf_offset_too_high_write : (Instr.regWr 0xFFFFFFFC 0).wf = false := by decide

theorem test_wf_illegal_nop : (Instr.illegal 0).wf = false := by decide

theorem test_wf_illegal_start : (Instr.illegal 1).wf = false := by decide

theorem test_wf_illegal_clear : (Instr.illegal 2).wf = false := by decide

theorem test_wf_last_offset : (Instr.regWr 0xFFC 0xFFFFFFFF).wf = true := by decide

/-! ## Decoding: words written out from R71, R72 and R73 -/

/-- P1, line 4: `wr LEN, 3` is KIND 01, ADDR 00000008, DATA 00000003. -/
theorem test_decode_regWr :
    decode (.hosttxn ⟨0b01, 0b00000000000000000000000000001000, 0b00000000000000000000000000000011⟩)
      = .ok (.regWr 0x008 3) := by decide

/-- The same record as R71's one bit string: bit 64 set (KIND = 1), ADDR at bit 32. -/
theorem test_decode_regWr_bits :
    decodeTableWord 72 0b010000000000000000000000000000100000000000000000000000000000000011
      = some (.regWr 0x008 3) := by decide

/-- P1, line 15: `rd BLKCNT`. -/
theorem test_decode_regRd : decode (.hosttxn ⟨0b00, 0x0000000C, 0⟩) = .ok (.regRd 0x00C) := by decide

/-- V-CMD 22: `rdb 0x00001000`. -/
theorem test_decode_msgRd : decode (.hosttxn ⟨0b10, 0x00001000, 0⟩) = .ok (.msgRd 4096) := by decide

/-- V-CMD 21: `wrb 5, 0x1FF`. -/
theorem test_decode_msgWr : decode (.hosttxn ⟨0b11, 0x00000005, 0x000001FF⟩) = .ok (.msgWr 5 0x1FF) := by decide

theorem test_decode_nop : decode (.cmd 0b00000000000000000000000000000000) = .ok .nop := by decide

theorem test_decode_start : decode (.cmd 0b00000000000000000000000000000001) = .ok .start := by decide

theorem test_decode_clear : decode (.cmd 0b00000000000000000000000000000010) = .ok .clear := by decide

/-- V-DEC: the first OP that is no command. -/
theorem test_decode_illegal_op : decode (.cmd 0x00000003) = .ok (.illegal 0x00000003) := by decide

/-- V-DEC: RSVD ≠ 0 although OP = CLEAR. -/
theorem test_decode_illegal_rsvd : decode (.cmd 0x80000002) = .ok (.illegal 0x80000002) := by decide

theorem test_decode_idle : decode (.phase 0b00) = .ok .idle := by decide

theorem test_decode_expand : decode (.phase 0b01) = .ok .expand := by decide

theorem test_decode_round : decode (.phase 0b10) = .ok .round := by decide

theorem test_decode_feed : decode (.phase 0b11) = .ok .feed := by decide

/-- V-CMD 20: both records are refused. -/
theorem test_decode_refused :
    decode (.hosttxn ⟨0, 0x00000002, 0⟩) = .error .misalignedOffset ∧
      decode (.hosttxn ⟨1, 0x00001000, 1⟩) = .error .offsetOutOfRange := by decide

/-- A bit outside the form is refused, as is a string longer than any form. -/
theorem test_decode_stray :
    decodeBits 8 0b100 = .error .strayBits ∧ decodeBits 72 (2 ^ 66) = .error .strayBits ∧
      decodeBits 80 0 = .error .noSuchForm := by decide

/-! ## The primitives (V-PRIM, E1, E2, V-PAD) -/

theorem test_rotl :
    rotl 0x12345678 1 = 0x2468ACF0 ∧ rotl 0x12345678 31 = 0x091A2B3C ∧ rotl 0x12345678 32 = 0x12345678 ∧
      rotl 0x12345678 33 = 0x2468ACF0 ∧ rotl 0x80000000 1 = 0x00000001 := by decide

theorem test_permutations :
    p0 0x12345678 = 0xD6688234 ∧ p1 0x12345678 = 0x05014549 ∧ p0 0x80000000 = 0x80010100 ∧
      p1 0x80000000 = 0x80404000 := by decide

theorem test_selectors :
    ff 0xF0F0F0F0 0xCCCCCCCC 0xAAAAAAAA 15 = 0x96969696 ∧ ff 0xF0F0F0F0 0xCCCCCCCC 0xAAAAAAAA 16 = 0xE8E8E8E8 ∧
      gg 0xF0F0F0F0 0xCCCCCCCC 0xAAAAAAAA 15 = 0x96969696 ∧ gg 0xF0F0F0F0 0xCCCCCCCC 0xAAAAAAAA 16 = 0xCACACACA := by
  decide

theorem test_bytes :
    be32 0x61 0x62 0x63 0x80 = 0x61626380 ∧ be32Bytes 0x66C7F0F4 = [0x66, 0xC7, 0xF0, 0xF4] ∧
      be64Bytes 24 = [0, 0, 0, 0, 0, 0, 0, 0x18] := by decide

/-- V-TJ: rounds 15, 16, 32 and 63. -/
theorem test_round_constants :
    rotl (roundConstant defaultConfig 15) 15 = 0x228CBCE6 ∧ rotl (roundConstant defaultConfig 16) 16 = 0x9D8A7A87 ∧
      rotl (roundConstant defaultConfig 32) 32 = 0x7A879D8A ∧
      rotl (roundConstant defaultConfig 63) 63 = 0x3D43CEC5 := by decide

/-- V-PAD rows 0, 55, 56, 64, 120 and 4096: k, Z and N. -/
theorem test_padding_counts :
    [0, 55, 56, 64, 120, 4096].map (fun l => (zeroBits l, zeroBytes l, blockCount l)) =
      [(447, 55, 1), (7, 0, 1), (511, 63, 2), (447, 55, 2), (511, 63, 3), (447, 55, 65)] := by decide

/-- V-PAD-56: the sixteen words of the second block of "a" × 56. -/
theorem test_padding_block :
    firstWords (padBlock ((List.range 56).map fun a => (a, 0x61)) 56 1) =
      [0, 0, 0, 0, 0, 0, 0, 0, 0, 0, 0, 0, 0, 0, 0, 0x000001C0] := by decide

/-! ## One step for each instruction -/

/-- V-CMD 11 and P1, line 15: BLKCNT reads the block counter. -/
theorem test_regRd_blkcnt : (after (exec (.regRd 0x00C) { abc with blk := 1 })).map (·.results) = some [1] := by decide

/-- V-CMD 6: STATUS after WR_ERR in round 5. -/
theorem test_regRd_status :
    (after (exec (.regRd 0x004) { midJob with wrErr := true })).map (·.results) = some [0x00050211] := by decide

/-- V-CMD 6: `wr LEN, 7` in ROUND is dropped, and WR_ERR raised. -/
theorem test_regWr_len_busy :
    (after (exec (.regWr 0x008 7) midJob)).map (fun t => (t.len, t.wrErr, t.statusWord)) =
      some (3, true, 0x00050211) := by decide

/-- V-CMD 25: `wr LEN, 0xFFFFFFFF` in IDLE is stored unchecked. -/
theorem test_regWr_len_idle :
    (after (exec (.regWr 0x008 0xFFFFFFFF) abc)).map (fun t => (t.len, t.statusWord)) = some (0xFFFFFFFF, 0) := by
  decide

/-- V-CMD 22: at MSG_CAP the host reads 0. -/
theorem test_msgRd_beyond :
    (after (exec (.msgRd 0x1000) { abc with msg := [(4095, 0x7F)] })).map (·.results) = some [0] := by decide

/-- V-CMD 23: in ROUND the host reads zext(MSG[0]). -/
theorem test_msgRd_busy :
    (after (exec (.msgRd 0) midJob)).map (fun t => (t.results, t.statusWord)) = some ([0x61], 0x00050201) := by decide

/-- V-CMD 21: only DATA[7:0] is stored. -/
theorem test_msgWr_low_byte : (after (exec (.msgWr 5 0x1FF) abc)).map (·.msg.read 5) = some 0xFF := by decide

/-- V-CMD 7 and 8: dropped with WR_ERR in range, with no flag at MSG_CAP. -/
theorem test_msgWr_busy :
    (after (exec (.msgWr 0 0x41) midJob)).map (fun t => (t.msg.read 0, t.statusWord)) = some (0x61, 0x00050211) ∧
      (after (exec (.msgWr 4096 0x41) midJob)).map (fun t => t.statusWord) = some 0x00050201 := by decide

/-- V-CMD 9. -/
theorem test_nop : after (exec (.regWr 0x000 0x00000000) midJob) = some midJob := by decide

/-- V-CMD 12: a new job; CMD_ERR and WR_ERR are kept. -/
theorem test_start_keeps_sticky_errors :
    (after (exec .start { abc with cmdErr := true, wrErr := true, done := true, j := 63 })).map
      (fun t => (t.cv, t.statusWord)) = some (defaultIV, 0x00000119) := by decide

/-- V-CMD 2 and 3: one byte over the capacity, and at it. -/
theorem test_start_length_limit :
    (after (exec .start { abc with len := 0x1001, j := 63 })).map (fun t => (t.phase, t.lenErr, t.j)) =
        some (.idle, true, 63) ∧
      (after (exec .start { abc with len := 0x1000 })).map (·.statusWord) = some 0x00000101 := by decide

/-- V-CMD 10: the flags and the counters are cleared, CV and LEN stay. -/
theorem test_clear :
    (after (exec .clear { midJob with cmdErr := true, blk := 1 })).map
      (fun t => (t.statusWord, t.blk, t.cv, t.len)) = some (0, 0, defaultIV, 3) := by decide

/-- P4, line 2: STATUS after `wr CMD, 0x100`. -/
theorem test_illegal : (after (exec (.illegal 0x100) abc)).map (·.statusWord) = some 0x00000008 := by decide

/-- P4: while IDLE the core has no step, and a turn given to it changes nothing. -/
theorem test_idle : after (exec .idle abc) = some abc := by decide

/-- V-EXP-abc: the sixteenth and the last word; V-SEQ: STATUS after EXPAND. -/
theorem test_expand :
    (after (exec .expand abcStarted)).map (fun t => (t.w[0], t.w[16], t.w[67], t.regs, t.statusWord)) =
      some (0x61626380, 0x9092E200, 0xB99C0545, defaultIV, 0x00000201) := by decide +kernel

/-- V-RND-abc, rounds 0 and 15 (the last with T_LO and the XOR forms). -/
theorem test_round_low :
    (after (exec .round (abcRound 0 defaultIV))).map (fun t => (t.regs, t.j)) = some
        (#v[0xB9EDC12B, 0x7380166F, 0x29657292, 0x172442D7, 0xB2AD29F4, 0xA96F30BC, 0xC550B189, 0xE38DEE4D], 1) ∧
      (after (exec .round (abcRound 15
        #v[0x7C529778, 0x24C95ABC, 0x979AB113, 0x947A12D2, 0x3EE95933, 0x1A4A2554, 0xDB131B86, 0xAC64EE8D]))).map
          (·.regs) = some
        #v[0x34D1691E, 0x7C529778, 0x92B57849, 0x979AB113, 0x61F99646, 0x3EE95933, 0x2AA0D251, 0xDB131B86] := by
  decide +kernel

/-- V-RND-abc, rounds 16 (the first with T_HI, majority and choice) and 63 (the last; V-SEQ: the phase becomes FEED
and j stays). -/
theorem test_round_high :
    (after (exec .round (abcRound 16
        #v[0x34D1691E, 0x7C529778, 0x92B57849, 0x979AB113, 0x61F99646, 0x3EE95933, 0x2AA0D251, 0xDB131B86]))).map
          (·.regs) = some
        #v[0x796AFAB1, 0x34D1691E, 0xA52EF0F8, 0x92B57849, 0x067550F5, 0x61F99646, 0xC999F74A, 0x2AA0D251] ∧
      (after (exec .round (abcRound 63
        #v[0x2BFA5F60, 0x5E636B4B, 0x069AE2E2, 0x6144D5BB, 0x4AC3CF08, 0x09CCD95E, 0x3FB0A6AE, 0xEAE2C4FB]))).map
          (fun t => (t.regs, t.statusWord)) = some
        (#v[0x1547E69B, 0x2BFA5F60, 0xC6D696BC, 0x069AE2E2, 0xE808F43B, 0x4AC3CF08, 0xCAF04E66, 0x3FB0A6AE],
          0x003F0301) := by decide +kernel

/-- V-FEED-abc: CV, the block counter and STATUS after the last FEED. -/
theorem test_feed_last :
    (after (exec .feed { abcStarted with phase := .feed, j := 63, regs :=
        #v[0x1547E69B, 0x2BFA5F60, 0xC6D696BC, 0x069AE2E2, 0xE808F43B, 0x4AC3CF08, 0xCAF04E66, 0x3FB0A6AE] })).map
      (fun t => (t.cv, t.blk, t.statusWord)) = some
        (#v[0x66C7F0F4, 0x62EEEDD9, 0xD1F2D46B, 0xDC10E4E2, 0x4167C487, 0x5CF2F7A2, 0x297DA02B, 0x8F4BA8E0], 1,
          0x003F0002) := by decide

/-- V-SEQ: the first FEED of a two-block job. -/
theorem test_feed_more :
    (after (exec .feed { abcStarted with phase := .feed, j := 63, len := 64 })).map
      (fun t => (t.blk, t.statusWord)) = some (1, 0x003F0101) := by decide

/-! ## Whole functions and host programs -/

/-- V-DIG-abc. -/
theorem test_digest_abc :
    messageHash defaultConfig abc.msg 3 =
      #v[0x66C7F0F4, 0x62EEEDD9, 0xD1F2D46B, 0xDC10E4E2, 0x4167C487, 0x5CF2F7A2, 0x297DA02B, 0x8F4BA8E0] := by
  decide +kernel

/-- P1, line 6: a `poll` on STATUS stays the next line while BUSY. -/
theorem test_poll_waits :
    after (step { midJob with program := pseudoPoll 0x3 0x2, turns := [.host] }) =
      some { midJob with program := pseudoPoll 0x3 0x2 } := by decide

/-- V-CMD 24: a reset in a job. -/
theorem test_reset_turn :
    (after (step { midJob with turns := [.reset ⟨defaultIV, defaultIV, midJob.w, [(9, 7)]⟩] })).map
      (fun t => (t.statusWord, t.len, t.blk, t.cv, t.msg.read 9)) = some (0, 0, 0, defaultIV, 7) := by decide

/-- R79, R80: what the pseudo-instructions expand to, from P1 and P3. -/
theorem test_pseudo_instructions :
    pseudoLoad 0 [0x61, 0x62] = [.txn ⟨3, 0, 0x61⟩, .txn ⟨3, 1, 0x62⟩] ∧
      pseudoSetlen 64 = [.txn ⟨1, 0x00000008, 0x00000040⟩] ∧ pseudoCmd .start = [.txn ⟨1, 0, 1⟩] ∧
      pseudoDigest.head? = some (.txn ⟨0, 0x00000020, 0⟩) ∧
      pseudoDigest.getLast? = some (.txn ⟨0, 0x0000003C, 0⟩) ∧ pseudoDigest.length = 8 := by decide

/-! ## Witnesses: for each obligation with hypotheses, a state and operands that meet them, at the boundaries of each
clause -/

theorem witness_DecodeOfEncodeIsTheInstruction :
    (Instr.regRd 0xFFC).wf = true ∧ (Instr.regWr 0 0xFFFFFFFF).wf = true ∧ (Instr.msgWr 0xFFFFFFFF 0).wf = true ∧
      (Instr.illegal 3).wf = true := by decide

theorem witness_EncodeOfDecodeIsTheEncodedForm :
    decode (.hosttxn ⟨0, 0xFFC, 5⟩) = .ok (.regRd 0xFFC) ∧ decode (.cmd 3) = .ok (.illegal 3) ∧
      decode (.phase 3) = .ok .feed := by decide

theorem witness_CommandWordsDecodeByFullMatch :
    decode (.cmd 0) = .ok .nop ∧ decode (.cmd 1) = .ok .start ∧ decode (.cmd 2) = .ok .clear ∧
      decode (.cmd 3) = .ok (.illegal 3) ∧ decode (.cmd 0x100) = .ok (.illegal 0x100) := by decide

theorem witness_OnlyIllegalRegisterOffsetsAreRejected :
    decode (.hosttxn ⟨0, 0xFFE, 0⟩) = .error .misalignedOffset ∧
      decode (.hosttxn ⟨1, 0x1000, 0⟩) = .error .offsetOutOfRange ∧
      decode (.hosttxn ⟨1, 0xFFC, 0⟩) = .ok (.regWr 0xFFC 0) ∧ decode (.hosttxn ⟨2, 0xFFE, 0⟩) = .ok (.msgRd 0xFFE) := by
  decide

/-- A host with one line left: `rd STATUS`. -/
def reading : State := { abc with program := [lineRd statusOffset] }

theorem witness_HostTurnRunsTheDecodedRecord :
    reading.program = .txn ⟨0, 0x004, 0⟩ :: [] ∧ decode (.hosttxn ⟨0, 0x004, 0⟩) = .ok (.regRd 0x004) ∧
      ({ reading with turns := [.host] } : State).turns = .host :: [] ∧ reading.turns = [] ∧ reading.phase = .idle ∧
      decode (.cmd 2) = .ok .clear := by decide

theorem witness_CoreTurnRunsThePhase :
    decode (.phase midJob.phase.code) = .ok .round ∧ ({ midJob with turns := [.core] } : State).turns = .core :: [] ∧
      midJob.turns = [] ∧ midJob.phase ≠ .idle ∧ decode (.phase abc.phase.code) = .ok .idle ∧
      ({ abc with turns := [.core] } : State).turns = .core :: [] ∧ abc.phase = .idle := by decide

theorem witness_PollRepeatsUntilTheMaskedStatusMatches :
    ({ abc with turns := [.host] } : State).turns = .host :: [] ∧ abc.program = [] ∧
      ({ abc with program := pseudoWait } : State).program = .poll 1 0 :: [] ∧ abc.statusWord &&& 1 = 0 ∧
      midJob.statusWord &&& 1 ≠ 0 := by decide

theorem witness_ResetTurnPutsTheResetValues :
    ({ midJob with turns := [.reset ⟨defaultIV, defaultIV, midJob.w, [(9, 7), (9, 8), (4096, 1)]⟩, .core] } : State).turns =
      .reset ⟨defaultIV, defaultIV, midJob.w, [(9, 7), (9, 8), (4096, 1)]⟩ :: [.core] ∧ 4095 < midJob.cfg.msgCap := by
  decide

theorem witness_EveryMemoryIsSomeDraw :
    Memory.wf [(0, 0x61), (4095, 0xFF)] ∧ Memory.within [(0, 0x61), (4095, 0xFF)] abc.cfg.msgCap := by decide

theorem witness_PlacedWordIsRunNext :
    (Instr.regWr 0xFFC 1).wf = true ∧ (Instr.illegal 0xFFFFFFFF).wf = true ∧ Instr.feed.wf = true := by decide

theorem witness_IllegalCommandOnlyRaisesCmdErr :
    (3 : Word).extractLsb' 8 24 = 0 ∧ 0x03 ≤ ((3 : Word).extractLsb' 0 8).toNat ∧ (0x101 : Word).extractLsb' 8 24 ≠ 0 := by
  decide

/-- The two sides of the length check, at MSG_CAP and one above it, and a busy core. -/
theorem witness_StartBeginsAJobOrRaisesAFlag :
    midJob.phase ≠ .idle ∧ abc.phase = .idle ∧ abc.cfg.msgCap < ({ abc with len := 4097 } : State).len.toNat ∧
      ({ abc with len := 4096 } : State).len.toNat ≤ abc.cfg.msgCap := by decide

theorem witness_StartIsBusyAtOnce :
    let s : State := { abc with len := 4096 }
    s.phase = .idle ∧ s.len.toNat ≤ s.cfg.msgCap ∧ s.cmdErr = false ∧ s.wrErr = false := by decide

theorem witness_RegisterReadReturnsTheMap :
    ([0x000, 0x004, 0x008, 0x00C, 0x010, 0x01C, 0x020, 0x03C, 0x040, 0xFFC] : List Word).all
      (fun off => off.toNat % 4 == 0 && decide (off.toNat < 0x1000)) = true := by decide

/-- CMD, LEN in both modes, and neither; the last offset there is. -/
theorem witness_RegisterWriteCases :
    (0xFFC : Word).toNat % 4 = 0 ∧ (0xFFC : Word).toNat < 0x1000 ∧ (0xFFC : Word) ≠ 0x000 ∧ (0xFFC : Word) ≠ 0x008 ∧
      (0x008 : Word).toNat % 4 = 0 ∧ abc.phase = .idle ∧ midJob.phase ≠ .idle := by decide

theorem witness_MessageReadReturnsTheByte :
    (4095 : Word).toNat < abc.cfg.msgCap ∧ abc.cfg.msgCap ≤ (4096 : Word).toNat := by decide

theorem witness_MessageWriteStoresOneByteOrIsDropped :
    abc.msg.wf ∧ abc.cfg.msgCap ≤ (4096 : Word).toNat ∧ (4095 : Word).toNat < abc.cfg.msgCap ∧ midJob.phase ≠ .idle ∧
      abc.phase = .idle ∧ midJob.msg.wf := by decide

theorem witness_BadRegisterTransactionsHaveNoStep :
    (0xFFE : Word).toNat % 4 ≠ 0 ∧ 0x1000 ≤ (0x1000 : Word).toNat ∧
      ({ abc with turns := [.host], program := [.txn ⟨0, 0x1000, 9⟩] } : State).program = .txn ⟨0, 0x1000, 9⟩ :: [] ∧
      ({ abc with turns := [.host], program := [.txn ⟨1, 0xFFE, 9⟩] } : State).program = .txn ⟨1, 0xFFE, 9⟩ :: [] := by
  decide

theorem witness_PhaseCodesRunOnlyInTheirPhase :
    abc.phase = .idle ∧ abc.phase ≠ .expand ∧ abc.phase ≠ .round ∧ abc.phase ≠ .feed ∧ midJob.phase ≠ .idle := by decide

/-- LEN = MSG_CAP and the last block of that message. -/
theorem witness_ExpandWritesTheSchedule :
    let s : State := { abcStarted with len := 4096, blk := 64 }
    s.phase = .expand ∧ s.len.toNat ≤ s.cfg.msgCap ∧ s.blk.toNat < (s.len.toNat + 8) / 64 + 1 := by decide

theorem witness_ExpandFaultsOutsideThePaddingDomain :
    abcStarted.phase = .expand ∧ abcStarted.cfg.msgCap < ({ abcStarted with len := 4097 } : State).len.toNat ∧
      abcStarted.len.toNat ≤ abcStarted.cfg.msgCap ∧
      (abcStarted.len.toNat + 8) / 64 + 1 ≤ ({ abcStarted with blk := 1 } : State).blk.toNat := by decide

theorem witness_RoundUpdatesTheWorkingRegisters :
    midJob.phase = .round ∧ midJob.j ≠ 63 ∧ ({ midJob with j := 63 } : State).j = 63 ∧
      ({ midJob with j := 62 } : State).j ≠ 63 := by decide

/-- One block left, and one more than one. -/
theorem witness_FeedFoldsIntoTheChainingValue :
    abcFeed.phase = .feed ∧ (abcFeed.blk + 1).toNat = (abcFeed.len.toNat + 8) / 64 + 1 ∧
      (abcFeed.blk + 1).toNat ≠ (({ abcFeed with len := 56 } : State).len.toNat + 8) / 64 + 1 := by decide

theorem witness_RotlMovesEveryBit : (31 : Nat) < 32 ∧ (31 + 33) % 32 = 0 := by decide

theorem witness_SelectorsBitByBit : (31 : Nat) < 32 ∧ (15 : BitVec 6).toNat < 16 ∧ 16 ≤ (16 : BitVec 6).toNat := by decide

theorem witness_DigestBytesAreBigEndian :
    (7 : Nat) < 8 ∧ (3 : Nat) < 4 ∧ (digestBytes defaultIV)[31]? = some 0x4E := by decide

theorem witness_ZeroBitCountIsLeast :
    (8 * 55 + 1 + 7) % 512 = 448 ∧ 55 % 64 ≤ 55 ∧ 56 ≤ 56 % 64 ∧ (8 * 56 + 1 + 511) % 512 = 448 := by decide

theorem witness_PaddingKeepsTheMessageAndFillsBlocks :
    8 * (([0x61, 0x62, 0x63] : List Byte).length + 1 + 52 + 8) % 512 = 0 := by decide

theorem witness_LastBlockCarriesTheLength : (7 : Nat) < 8 ∧ (0 : Nat) < 8 := by decide

/-- Two memories that differ at L, and agree below it. -/
theorem witness_OnlyMessageBytesMatter :
    (∀ a, a < 3 → abc.msg.read a = Memory.read ((3, 0x99) :: abc.msg) a) ∧
      abc.msg.read 3 ≠ Memory.read ((3, 0x99) :: abc.msg) 3 := by decide

/-- START over a CV that is not IV, and FEED over working registers that are not zero. -/
theorem witness_OnlyStartAndFeedWriteTheChainingValue :
    (∃ t, exec .start abc = .next t ∧ t.cv ≠ abc.cv) ∧
      ∃ t, exec .feed { abcStarted with phase := .feed, regs := defaultIV } = .next t ∧ t.cv ≠ defaultIV :=
  ⟨⟨_, rfl, by decide⟩, ⟨_, rfl, by decide⟩⟩

/-- EXPAND changes W (its first word is "abc" and 0x80) and A..H; ROUND changes A..H. -/
theorem witness_OnlyExpandAndRoundWriteTheDatapath :
    (∃ t, exec .expand abcStarted = .next t ∧ t.w ≠ abcStarted.w ∧ t.regs ≠ abcStarted.regs) ∧
      ∃ t, exec .round midJob = .next t ∧ t.regs ≠ midJob.regs := by
  refine ⟨⟨_, rfl, ?_, by decide⟩, ⟨_, rfl, by decide⟩⟩
  intro e
  have h := congrArg (fun w : Schedule => w[0]) e
  revert h
  decide +kernel

theorem witness_OnlyMessageWritesChangeTheMemory :
    abc.msg.wf ∧ (∃ t, exec (.msgWr 0 0x41) abc = .next t) ∧ (1 : Nat) ≠ (0 : Word).toNat :=
  ⟨by decide, ⟨_, rfl⟩, by decide⟩

theorem witness_InputsAreStableDuringAJob :
    (∃ t, exec (.regWr 0x008 7) midJob = .next t) ∧ (∃ t, exec (.msgWr 0 0x41) midJob = .next t) ∧ midJob.phase ≠ .idle :=
  ⟨⟨_, rfl⟩, ⟨_, rfl⟩, by decide⟩

/-- Each flag is set by its cause: LEN_ERR one byte over the capacity, CMD_ERR by both of its causes, WR_ERR by both
of its. -/
theorem witness_ErrorFlagsHaveTheirCauses :
    (∃ t, exec .start { abc with len := 4097 } = .next t ∧ t.lenErr = true) ∧
      (∃ t, exec (.regWr 0x000 3) abc = .next t ∧ t.cmdErr = true) ∧
      (∃ t, exec .start midJob = .next t ∧ t.cmdErr = true) ∧
      (∃ t, exec (.regWr 0x008 7) midJob = .next t ∧ t.wrErr = true) ∧
      (∃ t, exec (.msgWr 4095 7) midJob = .next t ∧ t.wrErr = true) ∧
      abc.lenErr = false ∧ abc.cmdErr = false ∧ midJob.cmdErr = false ∧ midJob.wrErr = false :=
  ⟨⟨_, rfl, rfl⟩, ⟨_, rfl, rfl⟩, ⟨_, rfl, rfl⟩, ⟨_, rfl, rfl⟩, ⟨_, rfl, rfl⟩, rfl, rfl, rfl, rfl⟩

/-- CLEAR clears all four; START clears LEN_ERR and DONE; FEED sets DONE. -/
theorem witness_FlagsAreSticky :
    (∃ t, exec .clear { abc with cmdErr := true, wrErr := true, lenErr := true, done := true } = .next t ∧
        t.cmdErr = false ∧ t.wrErr = false ∧ t.lenErr = false ∧ t.done = false) ∧
      (∃ t, exec .start { abc with lenErr := true, done := true } = .next t ∧ t.lenErr = false ∧ t.done = false) ∧
      ∃ t, exec .feed { abcStarted with phase := .feed } = .next t ∧ t.done = true :=
  ⟨⟨_, rfl, rfl, rfl, rfl, rfl⟩, ⟨_, rfl, rfl, rfl⟩, ⟨_, rfl, rfl⟩⟩

theorem witness_AtMostOneErrorFlagIsSet : ∃ t, exec .start { abc with len := 4097 } = .next t ∧ t.lenErr = true :=
  ⟨_, rfl, rfl⟩

theorem witness_ParametersAndResultsPersist : ∃ t, step reading = .next t ∧ t.results = [0] := ⟨_, rfl, rfl⟩

theorem abc_inv : abc.Inv where
  cfg_wf := by decide
  msg_wf := by decide
  msg_within := by decide
  len_le := by decide
  blk_lt := by decide
  feed_j := by decide
  done_idle := by decide

theorem abcStarted_inv : abcStarted.Inv where
  cfg_wf := by decide
  msg_wf := by decide
  msg_within := by decide
  len_le := by decide
  blk_lt := by decide
  feed_j := by decide
  done_idle := by decide

theorem midJob_inv : midJob.Inv where
  cfg_wf := by decide
  msg_wf := by decide
  msg_within := by decide
  len_le := by decide
  blk_lt := by decide
  feed_j := by decide
  done_idle := by decide

theorem abcFeed_inv : abcFeed.Inv where
  cfg_wf := by decide
  msg_wf := by decide
  msg_within := by decide
  len_le := by decide
  blk_lt := by decide
  feed_j := by decide
  done_idle := by decide

/-- A two-block message, in FEED of its first block. -/
theorem twoBlocks_inv : ({ abcFeed with len := 56 } : State).Inv where
  cfg_wf := by decide
  msg_wf := by decide
  msg_within := by decide
  len_le := by decide
  blk_lt := by decide
  feed_j := by decide
  done_idle := by decide

/-- Rounds 62 and 63, the first and the last FEED, and both sides of the length check. -/
theorem witness_SequencerTransitions :
    (abcStarted.Inv ∧ abcStarted.phase = .expand) ∧ (midJob.Inv ∧ midJob.phase = .round) ∧
      (62 : BitVec 6).toNat < 63 ∧
      (({ abcFeed with len := 56 } : State).Inv ∧ abcFeed.blk.toNat + 1 < blockCount (56 : Word).toNat) ∧
      (abcFeed.Inv ∧ abcFeed.phase = .feed ∧ abcFeed.blk.toNat + 1 = blockCount abcFeed.len.toNat) ∧
      (abc.Inv ∧ abc.phase = .idle ∧ (4096 : Word).toNat ≤ abc.cfg.msgCap ∧ abc.cfg.msgCap < (4097 : Word).toNat) :=
  ⟨⟨abcStarted_inv, rfl⟩, ⟨midJob_inv, rfl⟩, by decide, ⟨twoBlocks_inv, by decide⟩, ⟨abcFeed_inv, rfl, by decide⟩,
    abc_inv, rfl, by decide, by decide⟩

theorem witness_EachCoreStepMovesTheJobOnePlace :
    abcFeed.Inv ∧ abcFeed.phase ≠ .idle ∧ (∃ t, exec abcFeed.phase.toInstr abcFeed = .next t) ∧
      midJob.Inv ∧ (∃ t, exec midJob.phase.toInstr midJob = .next t) ∧ (∃ t, exec .start midJob = .next t) :=
  ⟨abcFeed_inv, by decide, ⟨_, rfl⟩, midJob_inv, ⟨_, rfl⟩, ⟨_, rfl⟩⟩

/-- The examples' parameters, with two instances. -/
def twoCores : Config := { defaultConfig with ninst := 2 }

theorem witness_HashCoresShareNothing :
    twoCores.wf ∧ (System.reset twoCores).wf ∧ ∃ sys', (System.reset twoCores).stepAt ⟨1, by decide⟩ = .next sys' :=
  ⟨by decide, ⟨by decide, by decide⟩, ⟨_, rfl⟩⟩

theorem abcFeed_onCourse : abcFeed.OnCourse where
  chain := fun _ => rfl
  sched := fun _ => rfl
  working := fun h => by cases h
  finished := fun _ => rfl

theorem witness_EveryStepKeepsTheInvariant :
    abcFeed.Inv ∧ (∃ t, step abcFeed = .next t) ∧ abc.Inv ∧ ∃ t, step { abc with turns := [.core] } = .next t :=
  ⟨abcFeed_inv, ⟨_, rfl⟩, abc_inv, ⟨_, rfl⟩⟩

theorem witness_EveryStepKeepsTheJobOnCourse : abcFeed.Inv ∧ abcFeed.OnCourse ∧ ∃ t, step abcFeed = .next t :=
  ⟨abcFeed_inv, abcFeed_onCourse, ⟨_, rfl⟩⟩

theorem witness_DoneMeansTheMessageHash :
    abcFeed.Inv ∧ abcFeed.OnCourse ∧ abcFeed.done = false ∧ ∃ t, step abcFeed = .next t ∧ t.done = true :=
  ⟨abcFeed_inv, abcFeed_onCourse, rfl, ⟨_, rfl, rfl⟩⟩

theorem witness_DigestStaysWhileDone :
    let s : State := { reading with done := true }
    s.Inv ∧ s.done = true ∧ ∃ t, step s = .next t ∧ t.done = true :=
  ⟨⟨abc_inv.cfg_wf, abc_inv.msg_wf, abc_inv.msg_within, abc_inv.len_le, abc_inv.blk_lt, abc_inv.feed_j, fun _ => rfl⟩,
    rfl, ⟨_, rfl, rfl⟩⟩

/-- Both outcomes: a step, and the record of V-CMD 20 that has none. -/
theorem witness_InvariantStatesNeverFault :
    abc.Inv ∧ (∃ t, step abc = .next t) ∧
      ∃ r, step { abc with program := [.txn ⟨0, 0x002, 0⟩] } = .refused (.badRecord r) :=
  ⟨abc_inv, ⟨_, rfl⟩, ⟨_, rfl⟩⟩

theorem witness_JobEndsAfterSixtySixStepsPerBlock :
    let s : State := { abcStarted with len := 4096 }
    s.turns = [] ∧ s.phase = .expand ∧ s.blk = 0 ∧ s.cv = s.cfg.iv ∧ s.len.toNat ≤ s.cfg.msgCap := by decide

/-- "abc" after its FEED. -/
def abcDone : State :=
  { abcFeed with cv := feedForward abcFeed.regs abcFeed.cv, blk := 1, phase := .idle, done := true }

/-- The FEED of "abc", and then endless writes of its first byte. -/
theorem witness_EveryInfiniteInterleavingIsAnExecution :
    let states : Nat → State := fun n => match n with
      | 0 => abcFeed
      | _ + 1 => abcDone
    let events : Nat → Event := fun n => match n with
      | 0 => .core
      | _ + 1 => .host ⟨3, 0, 0x61⟩
    (states 0).turns = [] ∧ (states 0).program = [] ∧ (∀ n, events n = .core → (states n).phase ≠ .idle) ∧
      ∀ n, (events n).perform (states n) = .next (states (n + 1)) := by
  refine ⟨rfl, rfl, fun n h => ?_, fun n => by cases n <;> rfl⟩
  cases n with
  | zero => decide
  | succ n => cases h

/-- A poll whose condition never holds. -/
def pollForEver : HostLine := .poll 0 1

/-- "abc" after its job and the `wait` for it, with a poll for ever. -/
def afterWait : State := { abcDone with program := [pollForEver], results := [0x003F0002] }

theorem afterWait_stays : step afterWait = .next afterWait := by
  have hn : ¬ (afterWait.statusWord &&& 0 = 1) := by decide
  show (if afterWait.statusWord &&& 0 = 1 then exec (.regRd statusOffset) { afterWait with program := [] }
    else .next afterWait) = .next afterWait
  exact if_neg hn

/-- The FEED of "abc", the read that ends a `wait`, and then a poll for ever. -/
def feedThenWait : Execution where
  state := fun n => match n with
    | 0 => { abcFeed with program := pseudoWait ++ [pollForEver] }
    | 1 => { abcDone with program := pseudoWait ++ [pollForEver] }
    | _ + 2 => afterWait
  supply := fun _ => ⟨[], []⟩
  next := fun n => match n with
    | 0 => rfl
    | 1 => rfl
    | _ + 2 => afterWait_stays
  moves := fun n => match n with
    | 0 => ⟨by decide, by decide⟩
    | 1 => ⟨by decide, by decide⟩
    | _ + 2 => ⟨(nomatch ·), fun _ => (nomatch ·)⟩

/-- Both parts at once: a busy start, no reset and no CLEAR, and a pending `wait`. In the third state the other two
kinds of poll could start: DONE is set, and the STATUS of that idle state meets `poll 0x00000003, 0x00000002`. -/
theorem witness_FairJobsAndPollsEnd :
    feedThenWait.Fair ∧ (feedThenWait.state 0).Inv ∧ (feedThenWait.state 0).OnCourse ∧
      (feedThenWait.state 0).phase ≠ .idle ∧ (∀ n, ¬ (feedThenWait.before n).Aborts) ∧
      (feedThenWait.state 0).program = .poll 0x00000001 0x00000000 :: [pollForEver] ∧
      (∀ n d, (feedThenWait.before n).turnNow ≠ .reset d) ∧
      (feedThenWait.state 2).done = true ∧ (feedThenWait.state 2).statusWord &&& 0x00000003 = 0x00000002 := by
  have hr : ∀ n d, (feedThenWait.before n).turnNow ≠ .reset d := fun n d h => match n, h with
    | 0, h => by cases h
    | 1, h => by cases h
    | _ + 2, h => by cases h
  refine ⟨fun n h => absurd rfl (h (n + 2) (by omega)), ⟨abcFeed_inv.1, abcFeed_inv.2, abcFeed_inv.3, abcFeed_inv.4,
    abcFeed_inv.5, abcFeed_inv.6, abcFeed_inv.7⟩, ⟨abcFeed_onCourse.1, abcFeed_onCourse.2, abcFeed_onCourse.3,
    abcFeed_onCourse.4⟩, by decide, fun n h => ?_, rfl, hr, rfl, by decide⟩
  rcases h with ⟨d, hd⟩ | ⟨-, t, lines, hp, -⟩
  · exact hr n d hd
  · match n, hp with
    | 0, hp => cases hp
    | 1, hp => cases hp
    | _ + 2, hp => cases hp

/-- Two idle states with different working registers. -/
theorem witness_HiddenRegistersAreNeverObserved :
    abc.SameToHost { abc with regs := defaultIV } ∧ abc.regs ≠ defaultIV ∧ ∃ t, step abc = .next t :=
  ⟨⟨rfl, by simp [abc, State.reset]⟩, by decide, ⟨_, rfl⟩⟩

end Sys2Proof.Tests
end

section
/-! PROOFS. The statements of 00_scope.md: the word operations (R11, R12), the parameters and results across a step (R7,
R57), and the hash cores of a system (R7, R240). -/

namespace Sys2Proof.Machine

/-! ## Rotation (R11) -/

/-- The model's rotation is the library's, which reduces the amount modulo the width too. -/
theorem rotl_eq_rotateLeft (x : Word) (n : Nat) : rotl x n = x.rotateLeft n := by
  by_cases hs : n % 32 = 0
  · have hout : x >>> 32 = 0 := BitVec.ushiftRight_eq_zero (by omega)
    simp [rotl, BitVec.rotateLeft, BitVec.rotateLeftAux, hs, hout]
  · simp [rotl, BitVec.rotateLeft, BitVec.rotateLeftAux, hs]

/-- Bit k of the word lands at bit (k + n) mod 32: past bit 31 it wraps into the low n mod 32 bits, and otherwise it
moves up by n mod 32. -/
theorem getLsbD_rotl (x : Word) (n : Nat) {k : Nat} (hk : k < 32) :
    (rotl x n).getLsbD ((k + n) % 32) = x.getLsbD k := by
  rw [rotl_eq_rotateLeft, BitVec.getLsbD_rotateLeft]
  by_cases hwrap : 32 ≤ k + n % 32
  · have hpos : (k + n) % 32 = k + n % 32 - 32 := by omega
    rw [hpos, decide_eq_true (by omega), cond_true, show 32 - n % 32 + (k + n % 32 - 32) = k by omega]
  · have hpos : (k + n) % 32 = k + n % 32 := by omega
    rw [hpos, decide_eq_false (by omega), cond_false, Nat.add_sub_cancel, decide_eq_true (by omega), Bool.true_and]

/-- The amount counts modulo 32. -/
theorem rotl_add_width (x : Word) (n : Nat) : rotl x (n + 32) = rotl x n := by
  simp only [rotl, Nat.add_mod_right]

/-- Settles O29: the bit's new place by the two cases of `getLsbD_rotl`, and the amount's reduction. -/
theorem rotlMovesEveryBit : Obligations.RotlMovesEveryBit :=
  fun x n => ⟨fun _ hk => getLsbD_rotl x n hk, rotl_add_width x n⟩

/-! ## Big-endian conversions (R12) -/

/-- The byte at bit 8k of a bit string is its digit of weight 256^k. -/
theorem toNat_extract_byte {w : Nat} (x : BitVec w) (k : Nat) :
    (x.extractLsb' (8 * k) 8).toNat = x.toNat / 256 ^ k % 256 := by
  rw [BitVec.extractLsb'_toNat, Nat.shiftRight_eq_div_pow, Nat.pow_mul]

/-- A byte appended below a bit string is its last digit to base 256. -/
theorem toNat_append_byte {w : Nat} (x : BitVec w) (b : Byte) : (x ++ b).toNat = x.toNat * 256 + b.toNat := by
  rw [BitVec.toNat_append, ← Nat.shiftLeft_add_eq_or_of_lt b.isLt, Nat.shiftLeft_eq]

theorem toNat_be32 (b0 b1 b2 b3 : Byte) :
    (be32 b0 b1 b2 b3).toNat = b0.toNat * 2 ^ 24 + b1.toNat * 2 ^ 16 + b2.toNat * 2 ^ 8 + b3.toNat := by
  simp only [be32, toNat_append_byte]
  omega

/-- BE32bytes gives the four digits of the word to base 256, the highest first. -/
theorem be32Bytes_eq_iff (x : Word) (b0 b1 b2 b3 : Byte) :
    be32Bytes x = [b0, b1, b2, b3] ↔
      x.toNat / 256 ^ 3 % 256 = b0.toNat ∧ x.toNat / 256 ^ 2 % 256 = b1.toNat ∧
      x.toNat / 256 ^ 1 % 256 = b2.toNat ∧ x.toNat / 256 ^ 0 % 256 = b3.toNat := by
  simp only [be32Bytes, List.cons.injEq, and_true, ← BitVec.toNat_inj, ← toNat_extract_byte]

/-- BE32 and BE32bytes are inverse: four bytes are the bytes of a word exactly when the word is their BE32. -/
theorem be32Bytes_eq_iff_be32_eq (x : Word) (b0 b1 b2 b3 : Byte) :
    be32Bytes x = [b0, b1, b2, b3] ↔ be32 b0 b1 b2 b3 = x := by
  rw [be32Bytes_eq_iff, ← BitVec.toNat_inj, toNat_be32]
  omega

/-- The bytes of a 64-bit integer are its digits to base 256, the highest first. -/
theorem toNat_be64Bytes (v : BitVec 64) :
    (be64Bytes v).map BitVec.toNat = (List.range 8).map fun k => v.toNat / 256 ^ (7 - k) % 256 := by
  simp only [← toNat_extract_byte]
  rfl

/-- Settles O30: both conversions are read as digits to base 256. -/
theorem bigEndianConversions : Obligations.BigEndianConversions :=
  ⟨fun b0 b1 b2 b3 => ⟨toNat_be32 b0 b1 b2 b3, (be32Bytes_eq_iff_be32_eq _ b0 b1 b2 b3).mpr rfl⟩,
    fun x => ⟨_, _, _, _, rfl, (be32Bytes_eq_iff_be32_eq x _ _ _ _).mp rfl⟩, toNat_be64Bytes⟩

/-! ## Parameters and results (R7, R57) -/

/-- No instruction writes the parameters. -/
theorem Effect.cfg_eq {s t : State} {i : Instr} (h : Effect s i t) : t.cfg = s.cfg := by
  cases h <;> simp

/-- An instruction only adds to the results. -/
theorem Effect.results_prefix {s t : State} {i : Instr} (h : Effect s i t) : s.results <+: t.results := by
  cases h with
  | readRegister hl => exact List.prefix_append _ _
  | readByte => exact List.prefix_append _ _
  | _ => simp

theorem step_cfg_eq {s t : State} (h : step s = .next t) : t.cfg = s.cfg :=
  step_keeps (P := fun u => u.cfg = s.cfg) (fun _ _ _ hu => hu) (fun _ _ _ hu he => he.cfg_eq.trans hu)
    (fun _ _ hu => hu) rfl h

theorem step_results_prefix {s t : State} (h : step s = .next t) : s.results <+: t.results :=
  step_keeps (P := fun u => s.results <+: u.results) (fun _ _ _ hu => hu)
    (fun _ _ _ hu he => hu.trans he.results_prefix) (fun _ _ hu => hu) List.prefix_rfl h

/-- Settles O46: every effect, every reset and every change of the lists keeps both. -/
theorem parametersAndResultsPersist : Obligations.ParametersAndResultsPersist := by
  intro s t h
  obtain ⟨more, hmore⟩ := step_results_prefix h
  exact ⟨step_cfg_eq h, more, hmore.symm⟩

/-! ## The hash cores of a system (R7, R240) -/

/-- A system's step of core k puts core k's own next state in its place, and is nothing more. -/
theorem System.stepAt_eq_next {c : Config} {sys sys' : System c} {k : Fin c.ninst} :
    sys.stepAt k = .next sys' ↔ ∃ t, step sys[k] = .next t ∧ sys.set k t = sys' := by
  unfold System.stepAt
  split <;> simp_all

/-- Putting a state with the system's parameters in a core's place keeps the system well-formed. -/
theorem System.wf_set {c : Config} {sys : System c} {k : Fin c.ninst} {t : State} (h : sys.wf) (ht : t.cfg = c) :
    System.wf (sys.set k t : System c) := by
  obtain ⟨hc, hcores⟩ := h
  refine ⟨hc, fun l => ?_⟩
  by_cases hl : l = k
  · simpa [hl] using ht
  · simpa [Fin.val_ne_of_ne (Ne.symm hl)] using hcores l

theorem System.wf_reset {c : Config} (h : c.wf) : (System.reset c).wf :=
  ⟨h, fun k => by simp [System.reset]⟩

/-- Settles O49: a system's step is a `Vector.set` at the core that stepped. -/
theorem hashCoresShareNothing : Obligations.HashCoresShareNothing := by
  intro c
  refine ⟨fun sys sys' k h => ?_, fun sys k t ht => ⟨_, System.stepAt_eq_next.mpr ⟨t, ht, rfl⟩⟩, System.wf_reset⟩
  obtain ⟨t, ht, rfl⟩ := System.stepAt_eq_next.mp h
  refine ⟨?_, fun l hl => ?_, fun hwf => ?_⟩
  · simpa using ht
  · simp [Fin.val_ne_of_ne hl.symm]
  · have hk : sys[k].cfg = c := hwf.2 k
    exact System.wf_set hwf ((step_cfg_eq ht).trans hk)

end Sys2Proof.Machine
end

section
/-! PROOFS. The statements of 10_state.md: what is kept by every step (R43, R45), the STATUS word (R38), which
instruction writes which piece of state (R22 to R32), and the state after reset (R44). -/

namespace Sys2Proof.Machine

/-! ## The invariant across a step (R45) -/

/-- In IDLE the invariant is about the parameters and the message memory alone. -/
theorem State.Inv.of_idle {s : State} (hp : s.phase = .idle) (hcfg : s.cfg.wf) (hmsg : s.msg.wf)
    (hwithin : s.msg.within s.cfg.msgCap) : s.Inv where
  cfg_wf := hcfg
  msg_wf := hmsg
  msg_within := hwithin
  len_le := fun hbusy => absurd hp hbusy
  blk_lt := fun hbusy => absurd hp hbusy
  feed_j := fun hfeed => by simp [hp] at hfeed
  done_idle := fun _ => hp

theorem State.Inv.raise {s : State} (h : s.Inv) (f : ErrFlag) : (s.raise f).Inv := by
  cases f <;> exact { h with }

theorem State.Inv.answer {s : State} (h : s.Inv) (v : Word) : (s.answer v).Inv := { h with }

/-- DONE is clear while BUSY (R45 (d)). -/
theorem State.Inv.not_done {s : State} (h : s.Inv) (hbusy : s.phase ≠ .idle) : ¬ s.done = true :=
  fun hdone => hbusy (h.done_idle hdone)

/-- Every effect keeps the invariant. -/
theorem Effect.inv {s t : State} {i : Instr} (he : Effect s i t) (h : s.Inv) : t.Inv := by
  cases he with
  | nop | idle | writeIgnored | byteDropped => exact h
  | readRegister | readByte => exact h.answer _
  | illegal | startBusy | lenBusy | byteBusy => exact h.raise _
  | startTooLong _ hp | lenSet hp => exact .of_idle hp h.cfg_wf h.msg_wf h.msg_within
  | clear => exact .of_idle rfl h.cfg_wf h.msg_wf h.msg_within
  | byteSet ha hp =>
    exact .of_idle hp h.cfg_wf (Memory.wf_write h.msg_wf _ _) (Memory.within_write h.msg_within ha _)
  | startJob _ _ hl =>
    exact { h with
      len_le := fun _ => hl, blk_lt := fun _ => blockCount_pos _, feed_j := nofun, done_idle := nofun }
  | expand hp hl hb =>
    exact { h with
      len_le := fun _ => hl, blk_lt := fun _ => hb, feed_j := nofun
      done_idle := fun hd => absurd hd (h.not_done (by simp [hp])) }
  | round hp hj => exact { h with feed_j := fun hf => by simp [hp] at hf }
  | lastRound hp hj =>
    have hbusy : s.phase ≠ .idle := by simp [hp]
    exact { h with
      len_le := fun _ => h.len_le hbusy, blk_lt := fun _ => h.blk_lt hbusy, feed_j := fun _ => hj
      done_idle := fun hd => absurd hd (h.not_done hbusy) }
  | feedMore hp hb =>
    have hbusy : s.phase ≠ .idle := by simp [hp]
    have hlt : s.blk.toNat < blockCount s.len.toNat := h.blk_lt hbusy
    have hnext : (s.blk + 1).toNat < blockCount s.len.toNat := by
      have := blk_succ hlt
      omega
    exact { h with
      len_le := fun _ => h.len_le hbusy, blk_lt := fun _ => hnext, feed_j := nofun
      done_idle := fun hd => absurd hd (h.not_done hbusy) }
  | feedLast => exact .of_idle rfl h.cfg_wf h.msg_wf h.msg_within

theorem State.Inv.resetEvent {s : State} (h : s.Inv) (d : ResetDraw) : (s.resetEvent d).Inv :=
  .of_idle rfl h.cfg_wf (Memory.wf_ofDraw _ _) (Memory.within_ofDraw _ _)

/-- Settles O52: the lists of turns and lines are no part of the invariant, and every effect and reset keeps it. -/
theorem everyStepKeepsTheInvariant : Obligations.EveryStepKeepsTheInvariant :=
  fun _ _ hs h =>
    step_keeps (P := State.Inv) (fun _ _ _ hu => { hu with }) (fun _ _ _ hu he => he.inv hu)
      (fun _ d hu => hu.resetEvent d) hs h

/-! ## The effects are exactly what the instructions answer -/

/-- A REG_WR that carries a command answers what the command answers (R190). -/
theorem Performs.exec_eq {i : Instr} {c : Command} (h : Performs i c) (s : State) : exec i s = exec c.toInstr s := by
  obtain rfl | ⟨v, rfl, rfl⟩ := h
  · rfl
  · exact performCmd_eq_exec v s

theorem whenPhase_of_phase {p : Phase} {s : State} (hp : s.phase = p) (o : Host.Outcome State Fault Refusal) :
    whenPhase p s o = o := if_pos hp

theorem exec_regRd {off : Word} (hl : isRegOffset off = true) (s : State) :
    exec (.regRd off) s = .next (s.answer (s.readRegister (registerAt off))) :=
  atLegalOffset_eq_next.mpr ⟨hl, rfl⟩

theorem exec_regWr_len (v : Word) (s : State) : exec (.regWr lenOffset v) s = .next (s.writeLen v) := rfl

theorem exec_regWr_ignored {off : Word} (hl : isRegOffset off = true) (hc : registerAt off ≠ .cmd)
    (hn : registerAt off ≠ .len) (v : Word) (s : State) : exec (.regWr off v) s = .next s := by
  refine atLegalOffset_eq_next.mpr ⟨hl, ?_⟩
  split <;> simp_all

/-- Each effect is one its instruction has: the converse of `exec_effect`. -/
theorem Effect.exec_eq {s t : State} {i : Instr} (he : Effect s i t) : exec i s = .next t := by
  cases he with
  | nop hi | illegal hi | clear hi => exact hi.exec_eq s
  | startBusy hi hp => rw [hi.exec_eq]; exact if_pos hp
  | startTooLong hi hp hl => rw [hi.exec_eq]; simp [Command.toInstr, exec, execStart, State.raise, hp, hl]
  | startJob hi hp hl =>
    rw [hi.exec_eq]; simp [Command.toInstr, exec, execStart, hp, Nat.not_lt.mpr hl]
  | writeIgnored hl hc hn => exact exec_regWr_ignored hl hc hn _ s
  | readRegister hl => exact exec_regRd hl s
  | readByte => rfl
  | lenBusy hp | lenSet hp => simp [exec_regWr_len, State.writeLen, hp]
  | byteDropped ha => simp [exec, execMsgWr, State.writeMessage, ha]
  | byteBusy ha hp | byteSet ha hp => simp [exec, execMsgWr, State.writeMessage, Nat.not_le.mpr ha, hp]
  | idle hp => exact whenPhase_of_phase hp _
  | expand hp hl hb =>
    simp [exec, execExpand, whenPhase_of_phase hp, Nat.not_lt.mpr hl, Nat.not_le.mpr hb]
  | round hp hj => exact (whenPhase_of_phase hp _).trans (if_neg hj)
  | lastRound hp hj => exact (whenPhase_of_phase hp _).trans (if_pos hj)
  | feedMore hp hb => exact (whenPhase_of_phase hp _).trans (if_neg hb)
  | feedLast hp hb => exact (whenPhase_of_phase hp _).trans (if_pos hb)

theorem exec_eq_next_iff {i : Instr} {s t : State} : exec i s = .next t ↔ Effect s i t :=
  ⟨exec_effect, Effect.exec_eq⟩

/-! ## The hidden registers (R43) -/

theorem State.SameToHost.refl (s : State) : s.SameToHost s := ⟨rfl, fun _ => ⟨rfl, rfl⟩⟩

/-- The second state written as an update of the first. -/
theorem State.sameToHost_iff {s s' : State} :
    s.SameToHost s' ↔ ∃ r w, s' = { s with regs := r, w := w } ∧
      (s.phase = .round ∨ s.phase = .feed → r = s.regs ∧ w = s.w) := by
  constructor
  · rintro ⟨heq, hrounds⟩
    exact ⟨_, _, heq, hrounds⟩
  · rintro ⟨r, w, rfl, hrounds⟩
    exact ⟨rfl, hrounds⟩

theorem State.SameToHost.turnNow_eq {s s' : State} (h : s.SameToHost s') : s'.turnNow = s.turnNow := by
  rw [h.1]; rfl

theorem State.SameToHost.results_eq {s s' : State} (h : s.SameToHost s') : s'.results = s.results := by rw [h.1]

theorem State.SameToHost.cv_eq {s s' : State} (h : s.SameToHost s') : s'.cv = s.cv := by rw [h.1]

theorem State.SameToHost.statusWord_eq {s s' : State} (h : s.SameToHost s') : s'.statusWord = s.statusWord := by
  rw [h.1]; rfl

/-- Whatever an instruction does to a state it does to one that differs in the hidden registers: EXPAND overwrites
them, and only ROUND and FEED read them, in the phases where they are the same. -/
theorem Effect.sameToHost {s s' t : State} {i : Instr} (he : Effect s i t) (h : s.SameToHost s') :
    ∃ t', Effect s' i t' ∧ t.SameToHost t' := by
  obtain ⟨r, w, rfl, hrounds⟩ := State.sameToHost_iff.mp h
  cases he with
  | nop hi => exact ⟨_, .nop hi, h⟩
  | idle hp => exact ⟨_, .idle hp, h⟩
  | writeIgnored hl hc hn => exact ⟨_, .writeIgnored hl hc hn, h⟩
  | byteDropped ha => exact ⟨_, .byteDropped ha, h⟩
  | readRegister hl => exact ⟨_, .readRegister hl, rfl, hrounds⟩
  | readByte => exact ⟨_, .readByte, rfl, hrounds⟩
  | illegal hi => exact ⟨_, .illegal hi, rfl, hrounds⟩
  | startBusy hi hp => exact ⟨_, .startBusy hi hp, rfl, hrounds⟩
  | startTooLong hi hp hl => exact ⟨_, .startTooLong hi hp hl, rfl, hrounds⟩
  | startJob hi hp hl => exact ⟨_, .startJob hi hp hl, rfl, nofun⟩
  | clear hi => exact ⟨_, .clear hi, rfl, nofun⟩
  | lenBusy hp => exact ⟨_, .lenBusy hp, rfl, hrounds⟩
  | lenSet hp => exact ⟨_, .lenSet hp, rfl, hrounds⟩
  | byteBusy ha hp => exact ⟨_, .byteBusy ha hp, rfl, hrounds⟩
  | byteSet ha hp => exact ⟨_, .byteSet ha hp, rfl, hrounds⟩
  | expand hp hl hb => exact ⟨_, .expand hp hl hb, .refl _⟩
  | round hp hj =>
    obtain ⟨rfl, rfl⟩ := hrounds (.inl hp)
    exact ⟨_, .round hp hj, .refl _⟩
  | lastRound hp hj =>
    obtain ⟨rfl, rfl⟩ := hrounds (.inl hp)
    exact ⟨_, .lastRound hp hj, .refl _⟩
  | feedMore hp hb =>
    obtain ⟨rfl, rfl⟩ := hrounds (.inr hp)
    exact ⟨_, .feedMore hp hb, .refl _⟩
  | feedLast hp hb =>
    obtain ⟨rfl, rfl⟩ := hrounds (.inr hp)
    exact ⟨_, .feedLast hp hb, .refl _⟩

/-- Whatever next state `o` answers, `o'` answers one that the host cannot tell from it. -/
def MatchedBy (o o' : Host.Outcome State Fault Refusal) : Prop :=
  ∀ t, o = .next t → ∃ t', o' = .next t' ∧ t.SameToHost t'

theorem MatchedBy.next {s s' : State} (h : s.SameToHost s') : MatchedBy (.next s) (.next s') := by
  rintro t ⟨⟩
  exact ⟨s', rfl, h⟩

theorem MatchedBy.refl (o : Host.Outcome State Fault Refusal) : MatchedBy o o := fun t ht => ⟨t, ht, .refl t⟩

theorem exec_matchedBy {s s' : State} (h : s.SameToHost s') (i : Instr) : MatchedBy (exec i s) (exec i s') := by
  intro t ht
  obtain ⟨t', he, hsame⟩ := (exec_effect ht).sameToHost h
  exact ⟨t', he.exec_eq, hsame⟩

theorem performTxn_matchedBy {s s' : State} (h : s.SameToHost s') (x : HostTxn) :
    MatchedBy (performTxn x s) (performTxn x s') := by
  unfold performTxn
  split
  · exact exec_matchedBy h _
  · exact .refl _

/-- The outside world's lists are no hidden registers: the same change to them keeps two states alike. -/
theorem State.SameToHost.lists {s s' : State} (h : s.SameToHost s') (turns : List Turn) (program : List HostLine) :
    State.SameToHost { s with turns := turns, program := program } { s' with turns := turns, program := program } := by
  obtain ⟨r, w, rfl, hrounds⟩ := State.sameToHost_iff.mp h
  exact ⟨rfl, hrounds⟩

/-- The host's turn reads its program and, for a poll, STATUS, and both states have the same of each. -/
theorem hostTurn_matchedBy {s s' : State} (h : s.SameToHost s') : MatchedBy (hostTurn s) (hostTurn s') := by
  obtain ⟨r, w, rfl, hrounds⟩ := State.sameToHost_iff.mp h
  unfold hostTurn
  dsimp only
  split
  · exact .next h
  · exact performTxn_matchedBy (h.lists _ _) _
  · rw [h.statusWord_eq]
    split
    · exact exec_matchedBy (h.lists _ _) _
    · exact .next h

/-- Both states have the same turns due, and each of the three turns matches. -/
theorem step_matchedBy {s s' : State} (h : s.SameToHost s') : MatchedBy (step s) (step s') := by
  obtain ⟨r, w, rfl, hrounds⟩ := State.sameToHost_iff.mp h
  have hu := h.lists s.turns.tail s.program
  unfold step nextTurn
  dsimp only
  rw [h.turnNow_eq]
  split
  · exact exec_matchedBy hu _
  · exact hostTurn_matchedBy hu
  · exact .refl _

/-- Settles O60: the matching step, and what two states alike to the host have in common. -/
theorem hiddenRegistersAreNeverObserved : Obligations.HiddenRegistersAreNeverObserved := by
  intro s s' t h hst
  obtain ⟨t', ht', hsame⟩ := step_matchedBy h t hst
  exact ⟨t', ht', hsame, hsame.results_eq, hsame.cv_eq, hsame.statusWord_eq⟩

/-! ## The STATUS word (R38) -/

theorem State.busy_eq (s : State) : s.busy = decide (s.phase ≠ .idle) := by
  simp [State.busy, bne, beq_eq_decide]

/-- A field `x` placed at bit `n` of a word. -/
theorem getLsbD_field {w : Nat} (x : BitVec w) (n : Nat) {k : Nat} (hk : k < 32) :
    (x.setWidth 32 <<< n).getLsbD k = (decide (n ≤ k) && x.getLsbD (k - n)) := by
  by_cases h : n ≤ k
  · simp [hk, h, Nat.not_lt.mpr h]
  · simp [hk, h, Nat.lt_of_not_le h]

/-- A one-bit field has its flag at its bit and 0 elsewhere. -/
theorem getLsbD_flagAt (b : Bool) (n : Nat) {k : Nat} (hk : k < 32) :
    (flagAt b n).getLsbD k = (b && decide (k = n)) := by
  rw [flagAt, getLsbD_field _ _ hk]
  rcases Nat.lt_trichotomy k n with h | rfl | h
  · simp [Nat.not_le.mpr h, h.ne]
  · simp
  · rw [BitVec.getLsbD_of_ge _ _ (by omega)]
    simp [h.ne']

/-- R38's layout: j from bit 16 up, the phase code from bit 8 up, and a flag at each of bits 4 to 0. -/
theorem getLsbD_statusWord (s : State) {k : Nat} (hk : k < 32) :
    s.statusWord.getLsbD k =
      if 16 ≤ k then s.j.getLsbD (k - 16)
      else if 8 ≤ k then s.phase.code.getLsbD (k - 8)
      else (s.wrErr && decide (k = 4)) || (s.cmdErr && decide (k = 3)) || (s.lenErr && decide (k = 2)) ||
        (s.done && decide (k = 1)) || (s.busy && decide (k = 0)) := by
  simp only [State.statusWord, BitVec.getLsbD_or, getLsbD_flagAt _ _ hk, getLsbD_field _ _ hk]
  split
  · next hj =>
    have hcode : s.phase.code.getLsbD (k - 8) = false := BitVec.getLsbD_of_ge _ _ (by omega)
    have hflags : k ≠ 4 ∧ k ≠ 3 ∧ k ≠ 2 ∧ k ≠ 1 ∧ k ≠ 0 := by omega
    simp [hj, hcode, hflags]
  · next hj =>
    split
    · next hcode =>
      have hflags : k ≠ 4 ∧ k ≠ 3 ∧ k ≠ 2 ∧ k ≠ 1 ∧ k ≠ 0 := by omega
      simp [hj, hcode, hflags]
    · next hcode => simp [hj, hcode]

/-- A field of a word is read bit by bit. -/
theorem extractLsb'_eq_of_getLsbD {x : Word} {n w : Nat} {f : BitVec w}
    (h : ∀ i < w, x.getLsbD (n + i) = f.getLsbD i) : x.extractLsb' n w = f :=
  BitVec.eq_of_getLsbD_eq fun i hi => by simp [hi, h i hi]

/-- The phase field (R38), whose value is the phase's code. -/
theorem statusWord_phaseField (s : State) : s.statusWord.extractLsb' 8 2 = s.phase.code :=
  extractLsb'_eq_of_getLsbD fun i hi => by
    rw [getLsbD_statusWord s (by omega), if_neg (by omega), if_pos (by omega), Nat.add_sub_cancel_left]

/-- The round field (R38), whose value is j. -/
theorem statusWord_roundField (s : State) : s.statusWord.extractLsb' 16 6 = s.j :=
  extractLsb'_eq_of_getLsbD fun i hi => by
    rw [getLsbD_statusWord s (by omega), if_pos (by omega), Nat.add_sub_cancel_left]

/-- The reserved bits between the flags and the phase field. -/
theorem statusWord_reserved_low (s : State) : s.statusWord.extractLsb' 5 3 = 0 :=
  extractLsb'_eq_of_getLsbD fun i hi => by
    have hflags : 5 + i ≠ 4 ∧ 5 + i ≠ 3 ∧ 5 + i ≠ 2 ∧ 5 + i ≠ 1 ∧ 5 + i ≠ 0 := by omega
    rw [getLsbD_statusWord s (by omega), if_neg (by omega), if_neg (by omega)]
    simp [hflags]

/-- The reserved bits above the phase field: its code has no such bits. -/
theorem statusWord_reserved_middle (s : State) : s.statusWord.extractLsb' 10 6 = 0 :=
  extractLsb'_eq_of_getLsbD fun i hi => by
    rw [getLsbD_statusWord s (by omega), if_neg (by omega), if_pos (by omega), BitVec.getLsbD_of_ge _ _ (by omega)]
    simp

/-- The reserved bits above the round field: j has no such bits. -/
theorem statusWord_reserved_high (s : State) : s.statusWord.extractLsb' 22 10 = 0 :=
  extractLsb'_eq_of_getLsbD fun i hi => by
    rw [getLsbD_statusWord s (by omega), if_pos (by omega), BitVec.getLsbD_of_ge _ _ (by omega)]
    simp

/-- Settles O19: the five flags, then the fields and the reserved bits between them. -/
theorem statusWordBitByBit : Obligations.StatusWordBitByBit := by
  intro s
  refine ⟨?busy, ?done, ?lenErr, ?cmdErr, ?wrErr, statusWord_reserved_low s, ?phase, statusWord_reserved_middle s,
    statusWord_roundField s, statusWord_reserved_high s⟩
  case phase => rw [statusWord_phaseField]; cases s.phase <;> rfl
  case busy => rw [getLsbD_statusWord s (by decide), ← State.busy_eq]; simp
  all_goals rw [getLsbD_statusWord s (by decide)]; simp

/-! ## Which instruction writes which piece of state (R22 to R27) -/

/-- Settles O39: every effect but those of START and FEED leaves CV. -/
theorem onlyStartAndFeedWriteTheChainingValue : Obligations.OnlyStartAndFeedWriteTheChainingValue := by
  intro i s t h hcv
  cases exec_effect h with
  | startJob hi => exact .inr (performs_start.mp hi)
  | feedMore | feedLast => exact .inl rfl
  | _ => simp at hcv

/-- Settles O40: every effect but EXPAND's leaves W, and every effect but EXPAND's and ROUND's leaves A..H. -/
theorem onlyExpandAndRoundWriteTheDatapath : Obligations.OnlyExpandAndRoundWriteTheDatapath := by
  intro i s t h
  cases exec_effect h with
  | expand => exact ⟨fun _ => rfl, fun _ => .inl rfl⟩
  | round | lastRound => exact ⟨fun hw => absurd rfl hw, fun _ => .inr rfl⟩
  | _ => simp

/-- Settles O41: only the effect of a MSG_WR below MSG_CAP in IDLE touches the memory, and there only its own byte. -/
theorem onlyMessageWritesChangeTheMemory : Obligations.OnlyMessageWritesChangeTheMemory := by
  intro i s t hwf h c hc
  cases exec_effect h with
  | byteSet => exact Memory.read_write_other hwf (hc _ _ rfl) _
  | _ => simp

/-! ## The sticky flags (R31, R32) -/

/-- Only CLEAR clears CMD_ERR. -/
theorem Effect.performs_clear_of_cmdErr {s t : State} {i : Instr} (he : Effect s i t) (hs : s.cmdErr = true)
    (ht : t.cmdErr = false) : Performs i .clear := by
  cases he with
  | clear hi => exact hi
  | _ => simp_all

/-- Only CLEAR clears WR_ERR. -/
theorem Effect.performs_clear_of_wrErr {s t : State} {i : Instr} (he : Effect s i t) (hs : s.wrErr = true)
    (ht : t.wrErr = false) : Performs i .clear := by
  cases he with
  | clear hi => exact hi
  | _ => simp_all

/-- Only CLEAR and an accepted START clear LEN_ERR, the START only when it begins a job. -/
theorem Effect.performs_of_lenErr {s t : State} {i : Instr} (he : Effect s i t) (hs : s.lenErr = true)
    (ht : t.lenErr = false) : Performs i .clear ∨ Performs i .start ∧ s.phase = .idle := by
  cases he with
  | clear hi => exact .inl hi
  | startJob hi hp => exact .inr ⟨hi, hp⟩
  | _ => simp_all

/-- Only CLEAR and an accepted START clear DONE. -/
theorem Effect.performs_of_done {s t : State} {i : Instr} (he : Effect s i t) (hs : s.done = true)
    (ht : t.done = false) : Performs i .clear ∨ Performs i .start ∧ s.phase = .idle := by
  cases he with
  | clear hi => exact .inl hi
  | startTooLong hi hp | startJob hi hp => exact .inr ⟨hi, hp⟩
  | _ => simp_all

/-- Only FEED sets DONE. -/
theorem Effect.eq_feed_of_done {s t : State} {i : Instr} (he : Effect s i t) (hs : s.done = false)
    (ht : t.done = true) : i = .feed := by
  cases he with
  | feedLast => rfl
  | _ => simp_all

/-- Settles O44: the five lemmas above, with each command as its term or the REG_WR that carries it. -/
theorem flagsAreSticky : Obligations.FlagsAreSticky := by
  intro i s t h
  have he := exec_effect h
  simp only [← performs_clear, ← performs_start]
  exact ⟨he.performs_clear_of_cmdErr, he.performs_clear_of_wrErr, he.performs_of_lenErr, he.performs_of_done,
    he.eq_feed_of_done⟩

/-! ## The state after reset (R44) -/

/-- Settles O50: the control state's fields are written out in `State.reset`, and STATUS is computed from them. -/
theorem resetLeavesTheControlState : Obligations.ResetLeavesTheControlState :=
  ⟨rfl, rfl, rfl, rfl, rfl, rfl, rfl, rfl, by decide, rfl⟩

/-- The default parameters are within the spec's bounds (logs 4 and 5). -/
theorem defaultConfig_wf : defaultConfig.wf := by decide

/-- An idle core is on course, whatever its datapath holds. -/
theorem State.OnCourse.of_idle {s : State} (hp : s.phase = .idle) : s.OnCourse where
  chain := fun hbusy => absurd hp hbusy
  sched := by simp [hp]
  working := by simp [hp]
  finished := by simp [hp]

/-- Settles O51: in IDLE both invariants ask only for the parameters' bounds and the memory's form. -/
theorem resetMeetsTheInvariants : Obligations.ResetMeetsTheInvariants :=
  ⟨.of_idle rfl defaultConfig_wf Memory.wf_nil (List.forall_mem_nil _), .of_idle rfl⟩

end Sys2Proof.Machine
end

section
/-! PROOFS. The statements of 20_memory.md: the draw of a reset (R53), which message bytes matter (R52), the stability
of the inputs during a job (R65), and every infinite interleaving as an execution (R57). -/

namespace Sys2Proof.Machine

/-! ## The contents a reset can draw (R53) -/

/-- A canonical memory of backed bytes, drawn as it stands, is what the reset leaves: each entry is written in front
of the higher ones. -/
theorem Memory.ofDraw_eq_self {m : Memory} {cap : Nat} (hwf : m.wf) (hwithin : m.within cap) :
    Memory.ofDraw cap m = m := by
  induction m with
  | nil => rfl
  | cons c m ih =>
    obtain ⟨hc, hm⟩ := List.forall_mem_cons.mp hwithin
    have hfront : ∀ e ∈ m, c.1 < e.1 := (List.pairwise_cons.mp hwf.1).1
    rw [Memory.ofDraw_cons, if_pos hc, ih (Memory.wf_tail hwf) hm]
    exact Memory.write_of_lt hfront (hwf.2 c List.mem_cons_self)

/-- Settles O11: the memory's own entries are the draw. CV, A..H and W can be drawn as anything. -/
theorem everyMemoryIsSomeDraw : Obligations.EveryMemoryIsSomeDraw :=
  fun s m hwf hwithin => ⟨⟨s.cv, s.regs, s.w, m⟩, Memory.ofDraw_eq_self hwf hwithin⟩

/-! ## The bytes a block and the digest depend on (R52, R177) -/

/-- The Padding Unit reads the memory only below the length. -/
theorem paddedByte_congr {m m' : Memory} {l : Nat} (h : ∀ a < l, m.read a = m'.read a) (p : Nat) :
    paddedByte m l p = paddedByte m' l p := by
  by_cases hp : p < l
  · simp only [paddedByte, if_pos hp, h p hp]
  · simp only [paddedByte, if_neg hp]

theorem padBlock_congr {m m' : Memory} {l : Nat} (h : ∀ a < l, m.read a = m'.read a) :
    padBlock m l = padBlock m' l := by
  funext i
  ext k hk
  rw [getElem_padBlock, getElem_padBlock, paddedByte_congr h]

/-- Settles O38: the hash reads the memory only through its blocks. -/
theorem onlyMessageBytesMatter : Obligations.OnlyMessageBytesMatter := by
  intro c m m' l h
  have hblocks : padBlock m l = padBlock m' l := padBlock_congr h
  exact ⟨congrFun hblocks, by simp only [messageHash, chainAfter, hblocks]⟩

/-! ## The inputs of a job (R65, R45 (e)) -/

/-- Settles O42: only the effects of a LEN write and of a MSG_WR touch LEN and MSG, and both need IDLE. -/
theorem inputsAreStableDuringAJob : Obligations.InputsAreStableDuringAJob := by
  intro i s t h hbusy
  cases exec_effect h with
  | lenSet hp | byteSet _ hp => exact absurd hp hbusy
  | _ => simp

/-! ## Interleavings as executions (R57) -/

/-- No instruction touches the list of turns. -/
theorem Effect.turns_eq {s t : State} {i : Instr} (h : Effect s i t) : t.turns = s.turns := by
  cases h <;> simp

/-- No instruction touches the host's program: a host turn takes its line off before it performs it. -/
theorem Effect.program_eq {s t : State} {i : Instr} (h : Effect s i t) : t.program = s.program := by
  cases h <;> simp

/-- An event performs one instruction, or resets the core. -/
theorem Event.perform_next {e : Event} {s t : State} (h : e.perform s = .next t) :
    (∃ i, Effect s i t) ∨ ∃ d, t = s.resetEvent d := by
  cases e with
  | core => exact .inl ⟨_, exec_effect h⟩
  | host x =>
    simp only [Event.perform, performTxn] at h
    split at h
    · exact .inl ⟨_, exec_effect h⟩
    · cases h
  | reset d => cases h; exact .inr ⟨d, rfl⟩

/-- An event leaves the outside world's lists as they were. -/
theorem Event.perform_lists {e : Event} {s t : State} (h : e.perform s = .next t) :
    t.turns = s.turns ∧ t.program = s.program := by
  obtain ⟨i, he⟩ | ⟨d, rfl⟩ := Event.perform_next h
  · exact ⟨he.turns_eq, he.program_eq⟩
  · exact ⟨rfl, rfl⟩

/-- In an interleaving that starts with no turn and no line listed, none is listed at any point. -/
theorem interleaving_lists_nil {states : Nat → State} {events : Nat → Event} (hturns : (states 0).turns = [])
    (hprogram : (states 0).program = []) (hperform : ∀ n, (events n).perform (states n) = .next (states (n + 1)))
    (n : Nat) : (states n).turns = [] ∧ (states n).program = [] := by
  induction n with
  | zero => exact ⟨hturns, hprogram⟩
  | succ n ih =>
    obtain ⟨ht, hp⟩ := Event.perform_lists (hperform n)
    exact ⟨ht.trans ih.1, hp.trans ih.2⟩

/-- Supplied with what an event needs, and nothing else listed, the step is the event. -/
theorem step_supplied {s : State} (hturns : s.turns = []) (hprogram : s.program = []) (e : Event) :
    step (s.supplied e.supply) = e.perform s := by
  cases s
  subst hturns hprogram
  cases e <;> rfl

/-- With no turn listed, the first turn supplied is the one that is due. -/
theorem State.turnNow_supplied_of_nil {s : State} (hturns : s.turns = []) {i : Supply} {t : Turn} {rest : List Turn}
    (hi : i.turns = t :: rest) : (s.supplied i).turnNow = t :=
  State.turnNow_cons (rest := rest) (by simp [hturns, hi])

/-- The turn that an event's supply makes due is the event's own, so the step is one the spec gives (R205, R195). -/
theorem moves_supplied {s : State} (hturns : s.turns = []) {e : Event} (hcore : e = .core → s.phase ≠ .idle) :
    (s.supplied e.supply).Moves := by
  cases e with
  | core =>
    have hnow := State.turnNow_supplied_of_nil hturns (i := Event.core.supply) rfl
    exact ⟨fun _ => hcore rfl, fun hhost => by simp [hnow] at hhost⟩
  | host x =>
    have hnow := State.turnNow_supplied_of_nil hturns (i := (Event.host x).supply) rfl
    exact ⟨fun hc => by simp [hnow] at hc, fun _ => by simp [Event.supply]⟩
  | reset d =>
    have hnow := State.turnNow_supplied_of_nil hturns (i := (Event.reset d).supply) rfl
    exact ⟨fun hc => by simp [hnow] at hc, fun hhost => by simp [hnow] at hhost⟩

/-- Settles O58: the outside world supplies before each step what the next event needs. -/
theorem everyInfiniteInterleavingIsAnExecution : Obligations.EveryInfiniteInterleavingIsAnExecution := by
  intro states events hturns hprogram hcore hperform
  have hnil := interleaving_lists_nil hturns hprogram hperform
  exact ⟨{ state := states
           supply := fun n => (events n).supply
           next := fun n => (step_supplied (hnil n).1 (hnil n).2 (events n)).trans (hperform n)
           moves := fun n => moves_supplied (hnil n).1 (hcore n) }, fun _ => rfl⟩

end Sys2Proof.Machine
end

section
/-! PROOFS. The statements of 30_encoding.md: the three encoded forms and their bit strings (R71 to R73), the round
trips through the decoder and the encoder, the step that runs a placed instruction (R76), and polls (R80). -/

namespace Sys2Proof

/-! ## A record as 66 bits (R71) -/

/-- A word appended below a bit string takes its low 32 bits. -/
theorem toNat_append_word {w : Nat} (x : BitVec w) (y : Word) : (x ++ y).toNat = x.toNat * 2 ^ 32 + y.toNat := by
  rw [BitVec.toNat_append, ← Nat.shiftLeft_add_eq_or_of_lt y.isLt, Nat.shiftLeft_eq]

theorem HostTxn.toNat_pack (t : HostTxn) :
    t.pack.toNat = t.kind.toNat * 2 ^ 64 + t.addr.toNat * 2 ^ 32 + t.data.toNat := by
  simp only [HostTxn.pack, toNat_append_word]
  omega

/-- Packing and unpacking are inverse: 66 bits stand for a record exactly when they are its packing. -/
theorem HostTxn.unpack_eq_iff {b : BitVec 66} {t : HostTxn} : HostTxn.unpack b = t ↔ t.pack = b := by
  have hpack := t.toNat_pack
  obtain ⟨kind, addr, data⟩ := t
  rw [HostTxn.unpack, HostTxn.mk.injEq]
  simp only [← BitVec.toNat_inj, BitVec.extractLsb'_toNat, Nat.shiftRight_eq_div_pow, hpack]
  omega

theorem HostTxn.unpack_pack (t : HostTxn) : HostTxn.unpack t.pack = t := HostTxn.unpack_eq_iff.mpr rfl

theorem HostTxn.pack_unpack (b : BitVec 66) : (HostTxn.unpack b).pack = b := HostTxn.unpack_eq_iff.mp rfl

/-- Settles O3: the packed value is read as a number of three digits, and unpacking gives the digits. -/
theorem hostTxnPackingKeepsEveryBit : Obligations.HostTxnPackingKeepsEveryBit :=
  ⟨HostTxn.unpack_pack, HostTxn.pack_unpack, HostTxn.toNat_pack⟩

/-! ## Command words (R72) -/

theorem Command.toInstr_inj {c d : Command} : c.toInstr = d.toInstr ↔ c = d := by
  cases c <;> cases d <;> simp [Command.toInstr]

/-- A CMD word decodes to a command's instruction exactly when `decodeCmd` answers the command. -/
theorem decode_cmd_eq_ok {v : Word} {c : Command} : decode (.cmd v) = .ok c.toInstr ↔ decodeCmd v = c := by
  rw [decode, Except.ok.injEq, Command.toInstr_inj]

theorem decodeCmd_nop {v : Word} : decodeCmd v = .nop ↔ v = 0 := by
  rw [decodeCmd_eq]; repeat' split
  all_goals simp_all

/-- The decode of a CMD word is total. -/
theorem decodeCmd_cases (v : Word) :
    decodeCmd v = .nop ∨ decodeCmd v = .start ∨ decodeCmd v = .clear ∨ decodeCmd v = .illegal v := by
  rw [decodeCmd_eq]; repeat' split
  all_goals simp

/-- A CMD word decodes to ILLEGAL, with itself as the value, exactly when its fields are illegal. -/
theorem decodeCmd_illegal_self {v : Word} :
    decodeCmd v = .illegal v ↔ v.extractLsb' 8 24 ≠ 0 ∨ 0x03 ≤ (v.extractLsb' 0 8).toNat := by
  rw [decodeCmd_illegal, isIllegalWord_iff]
  exact and_iff_right rfl

/-- Settles O4: each clause is the one about `decodeCmd`. -/
theorem commandWordsDecodeByFullMatch : Obligations.CommandWordsDecodeByFullMatch := by
  intro v
  have hnop : decode (.cmd v) = .ok .nop ↔ decodeCmd v = .nop := decode_cmd_eq_ok (c := .nop)
  have hstart : decode (.cmd v) = .ok .start ↔ decodeCmd v = .start := decode_cmd_eq_ok (c := .start)
  have hclear : decode (.cmd v) = .ok .clear ↔ decodeCmd v = .clear := decode_cmd_eq_ok (c := .clear)
  have hillegal : decode (.cmd v) = .ok (.illegal v) ↔ decodeCmd v = .illegal v :=
    decode_cmd_eq_ok (c := .illegal v)
  rw [hnop, hstart, hclear, hillegal]
  exact ⟨decodeCmd_nop, decodeCmd_start, decodeCmd_clear, decodeCmd_illegal_self, decodeCmd_cases v⟩

/-! ## Decoding what the encoder writes -/

/-- R71: which records decode, and to what. -/
theorem decodeTxn_eq_ok {t : HostTxn} {i : Instr} :
    decodeTxn t = .ok i ↔
      (t.kind = 0 ∧ isRegOffset t.addr = true ∧ i = .regRd t.addr) ∨
      (t.kind = 1 ∧ isRegOffset t.addr = true ∧ i = .regWr t.addr t.data) ∨
      (t.kind = 2 ∧ i = .msgRd t.addr) ∨ (t.kind = 3 ∧ i = .msgWr t.addr t.data) := by
  have hkind : ∀ k : BitVec 2, k = 0 ∨ k = 1 ∨ k = 2 ∨ k = 3 := by decide
  rcases hkind t.kind with h | h | h | h <;> simp [decodeTxn, withLegalOffset_eq_ok, h, eq_comm (a := i)]

theorem decode_encode {i : Instr} (h : i.wf = true) : decode (encode i) = .ok i := by
  cases i with
  | regRd off => exact decodeTxn_eq_ok.mpr (.inl ⟨rfl, h, rfl⟩)
  | regWr off v => exact decodeTxn_eq_ok.mpr (.inr (.inl ⟨rfl, h, rfl⟩))
  | illegal v => exact decode_cmd_eq_ok.mpr (decodeCmd_illegal.mpr ⟨rfl, h⟩)
  | _ => rfl

/-- The length of an encoded form's bit string tells the form, and its value the fields (log 16). -/
theorem Encoded.ofBits_value (e : Encoded) : Encoded.ofBits e.nbits e.value = .ok e := by
  cases e with
  | hosttxn t => simp [Encoded.ofBits, Encoded.nbits, Encoded.value, t.pack.isLt, HostTxn.unpack_pack]
  | cmd v => simp [Encoded.ofBits, Encoded.nbits, Encoded.value, v.isLt]
  | phase code => simp [Encoded.ofBits, Encoded.nbits, Encoded.value, code.isLt]

theorem decodeTableWord_encode {i : Instr} (h : i.wf = true) :
    decodeTableWord (encode i).nbits (encode i).value = some i := by
  simp only [decodeTableWord, decodeBits, Encoded.ofBits_value, decode_encode h]

/-- Settles O1: the decoder undoes the encoder, and an encoded form's bit string is read back as the form. -/
theorem decodeOfEncodeIsTheInstruction : Obligations.DecodeOfEncodeIsTheInstruction :=
  fun _ h => ⟨decode_encode h, decodeTableWord_encode h⟩

/-- Settles O6: but for the two rejected records, each form is the encoding of the well-formed instruction it stands
for. -/
theorem wordsOfTheSpecDecode : Obligations.WordsOfTheSpecDecode :=
  ⟨decode_encode (i := .regRd 0x004) rfl, decode_encode (i := .regWr 0x008 3) rfl,
    decode_encode (i := .msgRd 4096) rfl, decode_encode (i := .msgWr 5 0x1FF) rfl, rfl, rfl,
    decode_encode (i := .illegal 0x101) rfl, decode_encode (i := .start) rfl, decode_encode (i := .idle) rfl,
    decode_encode (i := .expand) rfl, decode_encode (i := .round) rfl, decode_encode (i := .feed) rfl,
    decodeTableWord_encode (i := .regWr 0x008 3) rfl⟩

/-! ## Encoding what the decoder reads -/

/-- What a record decodes to is well-formed and encodes to the record, its DATA written 0 for a read (R71). -/
theorem encode_of_decodeTxn {t : HostTxn} {i : Instr} (h : decodeTxn t = .ok i) :
    i.wf = true ∧ encode i = (Encoded.hosttxn t).canonical := by
  obtain ⟨kind, addr, data⟩ := t
  obtain ⟨hk, hl, rfl⟩ | ⟨hk, hl, rfl⟩ | ⟨hk, rfl⟩ | ⟨hk, rfl⟩ := decodeTxn_eq_ok.mp h
  all_goals cases hk
  · exact ⟨hl, rfl⟩
  · exact ⟨hl, rfl⟩
  · exact ⟨rfl, rfl⟩
  · exact ⟨rfl, rfl⟩

/-- What a CMD word decodes to is well-formed and encodes to the word. -/
theorem encode_decodeCmd (v : Word) : (decodeCmd v).toInstr.wf = true ∧ encode (decodeCmd v).toInstr = .cmd v := by
  rcases decodeCmd_cases v with h | h | h | h <;> rw [h]
  · exact ⟨rfl, by rw [decodeCmd_nop.mp h]; rfl⟩
  · exact ⟨rfl, by rw [decodeCmd_start.mp h]; rfl⟩
  · exact ⟨rfl, by rw [decodeCmd_clear.mp h]; rfl⟩
  · exact ⟨(decodeCmd_illegal.mp h).2, rfl⟩

/-- What a phase code decodes to is well-formed and encodes to the code. -/
theorem encode_decodePhase :
    ∀ code, (decodePhase code).toInstr.wf = true ∧ encode (decodePhase code).toInstr = .phase code := by
  decide

/-- Settles O2: one lemma for each of the three forms. -/
theorem encodeOfDecodeIsTheEncodedForm : Obligations.EncodeOfDecodeIsTheEncodedForm := by
  intro e i h
  cases e with
  | hosttxn t => exact encode_of_decodeTxn h
  | cmd v => cases h; exact encode_decodeCmd v
  | phase code => cases h; exact encode_decodePhase code

end Sys2Proof

namespace Sys2Proof.Machine

/-! ## A placed instruction (R76) -/

theorem performTxn_of_decode {t : HostTxn} {i : Instr} (h : decode (.hosttxn t) = .ok i) (s : State) :
    performTxn t s = exec i s := by
  simp only [performTxn, h]

/-- A host turn whose next line is a record. -/
theorem hostTurn_txn {s : State} {t : HostTxn} {lines : List HostLine} (h : s.program = .txn t :: lines) :
    hostTurn s = performTxn t { s with program := lines } := by
  simp only [hostTurn, h]

/-- A placed record is taken off the host's program and performed. -/
theorem step_placed_hosttxn {t : HostTxn} {i : Instr} (h : decode (.hosttxn t) = .ok i) (s : State) :
    step (s.withFetchWord (Encoded.hosttxn t).nbits (Encoded.hosttxn t).value) = exec i s := by
  have hplaced : s.withFetchWord (Encoded.hosttxn t).nbits (Encoded.hosttxn t).value =
      { s with program := .txn t :: s.program, turns := .host :: s.turns } := by
    simp [State.withFetchWord, placeWord, Encoded.nbits, Encoded.value, HostTxn.unpack_pack]
  rw [hplaced, step_host rfl, hostTurn_txn rfl, performTxn_of_decode h]

/-- A placed CMD word is written to CMD and performed (R190). -/
theorem step_placed_cmd {v : Word} {i : Instr} (h : decode (.cmd v) = .ok i) (s : State) :
    step (s.withFetchWord (Encoded.cmd v).nbits (Encoded.cmd v).value) = exec i s := by
  cases h
  have hplaced : s.withFetchWord (Encoded.cmd v).nbits (Encoded.cmd v).value =
      { s with program := .txn ⟨1, cmdOffset, v⟩ :: s.program, turns := .host :: s.turns } := by
    simp [State.withFetchWord, placeWord, Encoded.nbits, Encoded.value]
  rw [hplaced, step_host rfl, hostTurn_txn rfl, performTxn_of_decode (i := .regWr cmdOffset v) rfl]
  exact Performs.exec_eq (.inr ⟨v, rfl, rfl⟩) s

/-- A placed PHASE code puts the core in its phase, and the core steps (R205). -/
theorem step_placed_phase (code : BitVec 2) (s : State) :
    step (s.withFetchWord (Encoded.phase code).nbits (Encoded.phase code).value) =
      exec (decodePhase code).toInstr { s with phase := decodePhase code } := by
  have hplaced : s.withFetchWord (Encoded.phase code).nbits (Encoded.phase code).value =
      { s with phase := decodePhase code, turns := .core :: s.turns } := by
    simp [State.withFetchWord, placeWord, Encoded.nbits, Encoded.value]
  rw [hplaced, step_core rfl, coreTurn]

/-- Settles O12: by the form the instruction is encoded in, and the round trip of that form. -/
theorem placedWordIsRunNext : Obligations.PlacedWordIsRunNext := by
  intro i s h
  have hdecode := decode_encode h
  cases i with
  | regRd | regWr | msgRd | msgWr => exact step_placed_hosttxn hdecode s
  | nop | start | clear | illegal => exact step_placed_cmd hdecode s
  | idle | expand | round | feed => exact step_placed_phase _ s

/-! ## A poll (R80) -/

/-- A host with no line left issues nothing. -/
theorem hostTurn_nil {s : State} (h : s.program = []) : hostTurn s = .next s := by
  simp only [hostTurn, h]

/-- A poll whose condition does not hold has no effect. -/
theorem hostTurn_poll_wait {s : State} {mask val : Word} {lines : List HostLine}
    (h : s.program = .poll mask val :: lines) (hwait : s.statusWord &&& mask ≠ val) : hostTurn s = .next s := by
  simp only [hostTurn, h, if_neg hwait]

/-- A poll whose condition holds returns STATUS and is done. -/
theorem hostTurn_poll_done {s : State} {mask val : Word} {lines : List HostLine}
    (h : s.program = .poll mask val :: lines) (hdone : s.statusWord &&& mask = val) :
    hostTurn s = .next { s with program := lines, results := s.results ++ [s.statusWord] } := by
  simp only [hostTurn, h, if_pos hdone]
  exact exec_regRd (off := statusOffset) rfl _

/-- Settles O9: the listed turn is the host's, and its next line is none, a poll that waits or a poll that is done. -/
theorem pollRepeatsUntilTheMaskedStatusMatches : Obligations.PollRepeatsUntilTheMaskedStatusMatches := by
  intro s turns hturns
  rw [step_host hturns]
  exact ⟨fun h => hostTurn_nil h, fun mask val lines h =>
    ⟨fun hwait => hostTurn_poll_wait h hwait, fun hdone => hostTurn_poll_done h hdone⟩⟩

end Sys2Proof.Machine
end

section
/-! PROOFS. The statements of 40_padding.md: the zero-bit count and the padded length (R101, R102), the padded message
(R100, R107), its blocks (R103, R105, R108), and EXPAND outside the Padding Unit's domain (R103, R104). -/

namespace Sys2Proof.Machine

/-! ## The zero bits (R101, R102) -/

/-- k is a residue modulo 512. -/
theorem zeroBits_bounds (l : Nat) : 0 ≤ zeroBits l ∧ zeroBits l < 512 :=
  ⟨Int.emod_nonneg _ (by decide), Int.emod_lt_of_pos _ (by decide)⟩

/-- The zero bits, after the 1 bit, bring the length to 448 modulo 512. -/
theorem zeroBits_congruence (l : Nat) : (8 * l + 1 + zeroBits l) % 512 = 448 := by
  simp only [zeroBits, bitLength]
  omega

/-- Settles O34: any count with the congruence is k modulo 512, and k is below 512. -/
theorem zeroBitCountIsLeast : Obligations.ZeroBitCountIsLeast := by
  intro l
  obtain ⟨hnonneg, hlt⟩ := zeroBits_bounds l
  obtain ⟨k, hk⟩ := Int.eq_ofNat_of_zero_le hnonneg
  have hcong := zeroBits_congruence l
  have hcases := zeroBits_cases l
  rw [hk] at hlt hcong hcases
  refine ⟨k, hk, by omega, fun k' hk' => ?_, fun hlow => ?_, fun hhigh => ?_, padded_length l⟩
  · have hsame : k' % 512 = k := by omega
    exact hsame ▸ Nat.mod_le k' 512
  · rw [if_pos hlow] at hcases
    exact ⟨by omega, by rw [zeroBytes_cases, if_pos hlow]⟩
  · have hnot : ¬ l % 64 ≤ 55 := by omega
    rw [if_neg hnot] at hcases
    exact ⟨by omega, by rw [zeroBytes_cases, if_neg hnot]⟩

/-! ## The padded message (R100, R107) -/

theorem length_lengthField (l : Nat) : (lengthField l).length = 8 := rfl

/-- Z(L) zero bytes is the least count that fills whole blocks. -/
theorem zeroBytes_le {l z : Nat} (h : (l + 1 + z + 8) % 64 = 0) : zeroBytes l ≤ z := by
  rw [zeroBytes_cases]
  split <;> omega

/-- The padded message ends with the length field. -/
theorem drop_pad (m : List Byte) : (pad m).drop ((pad m).length - 8) = lengthField m.length := by
  rw [pad, List.length_append, length_lengthField, Nat.add_sub_cancel, List.drop_left]

/-- The padded message begins with the message and the byte 0x80. -/
theorem append_prefix_pad (m : List Byte) : m ++ [0x80] <+: pad m := by
  rw [pad, List.append_assoc]
  exact List.prefix_append _ _

/-- Settles O35: the length by blocks, the two ends of the padded message, and the least zero count. -/
theorem paddingKeepsTheMessageAndFillsBlocks : Obligations.PaddingKeepsTheMessageAndFillsBlocks := by
  intro m
  obtain ⟨rest, hpad⟩ := append_prefix_pad m
  refine ⟨by rw [length_pad]; omega, drop_pad m, ?_, ?_, fun z hz => zeroBytes_le (by omega)⟩
  · rw [← hpad, List.append_assoc, List.take_left]
  · rw [← hpad, List.append_assoc, List.getElem?_append_right le_rfl]
    simp

/-! ## The blocks (R103, R105, R108) -/

/-- The padded message of the stored bytes, offset by offset. -/
theorem pad_messageBytes (m : Memory) (l : Nat) :
    pad (messageBytes m l) = List.ofFn fun p : Fin (64 * blockCount l) => paddedByte m l p := by
  have hlength : (pad (messageBytes m l)).length = 64 * blockCount l := by rw [length_pad, length_messageBytes]
  apply List.ext_getElem (by rw [hlength, List.length_ofFn])
  intro p hp _
  rw [List.getElem_ofFn, ← Option.some_inj, ← List.getElem?_eq_getElem, paddedByte_eq m l p (hlength ▸ hp)]

theorem toList_padBlock (m : Memory) (l i : Nat) :
    (padBlock m l i).toList = List.ofFn fun k : Fin 64 => paddedByte m l (64 * i + k) :=
  Vector.toList_ofFn

/-- Settles O36: the blocks are the consecutive pieces of 64 bytes of the padded message. -/
theorem padBlocksAreThePaddedMessage : Obligations.PadBlocksAreThePaddedMessage := by
  intro m l
  rw [pad_messageBytes, List.ofFn_mul']
  simp only [← toList_padBlock, List.flatMap, List.ofFn_eq_map (n := blockCount l), ← List.map_coe_finRange_eq_range,
    List.map_map, Function.comp_def]

/-- The last eight offsets hold the length field. -/
theorem paddedByte_lengthField (m : Memory) (l k : Nat) (hk : k < 8) :
    paddedByte m l (64 * blockCount l - 8 + k) = (lengthField l)[k]'hk := by
  have hlength := padded_length l
  rw [paddedByte, if_neg (by omega), if_neg (by omega), if_neg (by omega), Nat.add_sub_cancel_left]
  exact List.getD_eq_getElem _ _ hk

/-- Bits 63..0 of a number have its eight lowest digits to base 256. -/
theorem mod_two_pow_64_digit (n k : Nat) (hk : k < 8) :
    n % 2 ^ 64 / 256 ^ (7 - k) % 256 = n / 256 ^ (7 - k) % 256 := by
  have hsplit : 2 ^ 64 = 256 ^ (7 - k) * 256 ^ (k + 1) := by
    rw [← Nat.pow_add, show 7 - k + (k + 1) = 8 by omega]; rfl
  rw [hsplit, Nat.mod_mul_right_div_self, Nat.mod_mod_of_dvd _ (dvd_pow_self 256 k.succ_ne_zero)]

/-- Each byte of the length field is a digit of the bit length to base 256 (R101). -/
theorem toNat_lengthField (l k : Nat) (hk : k < 8) :
    ((lengthField l)[k]'hk).toNat = 8 * l / 256 ^ (7 - k) % 256 := by
  have hdigits : (lengthField l).map BitVec.toNat =
      (List.range 8).map fun k => 8 * l % 2 ^ 64 / 256 ^ (7 - k) % 256 := toNat_be64Bytes _
  calc ((lengthField l)[k]'hk).toNat
      = ((lengthField l).map BitVec.toNat)[k]'hk := (List.getElem_map _).symm
    _ = 8 * l % 2 ^ 64 / 256 ^ (7 - k) % 256 := by simp only [hdigits, List.getElem_map, List.getElem_range]
    _ = 8 * l / 256 ^ (7 - k) % 256 := mod_two_pow_64_digit (8 * l) k hk

/-- Settles O37: byte 56 + k of the last block is byte k of the length field. -/
theorem lastBlockCarriesTheLength : Obligations.LastBlockCarriesTheLength := by
  intro m l k hk
  have hpos := blockCount_pos l
  have hoffset : 64 * (blockCount l - 1) + (56 + k) = 64 * blockCount l - 8 + k := by omega
  rw [getElem_padBlock, hoffset, paddedByte_lengthField m l k hk, toNat_lengthField l k hk]

/-! ## EXPAND outside the Padding Unit's domain (R103, R104) -/

/-- Settles O26: EXPAND's two tests, in their order. -/
theorem expandFaultsOutsideThePaddingDomain : Obligations.ExpandFaultsOutsideThePaddingDomain := by
  intro s hphase
  refine ⟨fun hlen => ?_, fun hlen hblk => ?_⟩
  · exact (whenPhase_of_phase hphase _).trans (if_pos hlen)
  · exact ((whenPhase_of_phase hphase _).trans (if_neg (Nat.not_lt.mpr hlen))).trans (if_pos hblk)

end Sys2Proof.Machine
end

section
/-! PROOFS. The statements of 41_expander.md: EXPAND inside the Padding Unit's domain (R123, R124, R126), and the
permutations P1 and P0 (R122, R143). -/

namespace Sys2Proof.Machine

/-! ## EXPAND (R126) -/

/-- Settles O25: inside the domain EXPAND has one effect, and W is the expansion of the current block. -/
theorem expandWritesTheSchedule : Obligations.ExpandWritesTheSchedule := by
  intro s hphase hlen hblk
  refine ⟨expandBlock (padBlock s.msg s.len.toNat s.blk.toNat), ?_, ?_, ?_⟩
  · exact (Effect.expand hphase hlen hblk).exec_eq
  · exact expandBlock_first _
  · exact expandBlock_rec _

/-! ## The permutations (R122, R143) -/

/-- A word XORed with two of its rotations is linear over XOR, whatever the two amounts. -/
theorem xor_rotl_xor_rotl_linear (x y : Word) (m n : Nat) :
    (x ^^^ y) ^^^ rotl (x ^^^ y) m ^^^ rotl (x ^^^ y) n =
      (x ^^^ rotl x m ^^^ rotl x n) ^^^ (y ^^^ rotl y m ^^^ rotl y n) := by
  rw [rotl_xor, rotl_xor]
  ac_rfl

theorem p1_xor (x y : Word) : p1 (x ^^^ y) = p1 x ^^^ p1 y := xor_rotl_xor_rotl_linear x y 15 23

theorem p0_xor (x y : Word) : p0 (x ^^^ y) = p0 x ^^^ p0 y := xor_rotl_xor_rotl_linear x y 9 17

/-- Settles O32: the two formulas are the definitions, linearity is the rotations', and the examples are evaluated. -/
theorem permutationsAreLinear : Obligations.PermutationsAreLinear := by
  refine ⟨fun _ => rfl, fun _ => rfl, p1_xor, p0_xor, ?_, ?_, ?_, ?_⟩ <;> decide

end Sys2Proof.Machine
end

section
/-! PROOFS. The statements of 42_compressor.md: the boolean selectors (R142) and ROUND (R145 to R148, R150, R151). -/

namespace Sys2Proof.Machine

/-! ## The boolean selectors (R142) -/

section
variable {x y z : Word} {j : BitVec 6}

theorem ff_of_lt (hj : j.toNat < 16) : ff x y z j = x ^^^ y ^^^ z := if_pos hj

theorem ff_of_le (hj : 16 ≤ j.toNat) : ff x y z j = (x &&& y) ||| (x &&& z) ||| (y &&& z) :=
  if_neg (Nat.not_lt.mpr hj)

theorem gg_of_lt (hj : j.toNat < 16) : gg x y z j = x ^^^ y ^^^ z := if_pos hj

theorem gg_of_le (hj : 16 ≤ j.toNat) : gg x y z j = (x &&& y) ||| (~~~x &&& z) := if_neg (Nat.not_lt.mpr hj)

end

/-- The OR of the three pairwise ANDs is the majority. -/
theorem or_pairwise_and_eq_majority (a b c : Bool) :
    ((a && b) || (a && c) || (b && c)) = decide (2 ≤ a.toNat + b.toNat + c.toNat) := by
  revert a b c; decide

/-- Two ANDs guarded by a bit and its complement are a choice by that bit. -/
theorem or_guarded_and_eq_ite (a b c : Bool) : ((a && b) || (!a && c)) = if a = true then b else c := by
  cases a <;> simp

/-- Settles O31: each formula of R142 read at one bit. -/
theorem selectorsBitByBit : Obligations.SelectorsBitByBit := by
  intro x y z j k hk
  refine ⟨fun hj => ⟨?_, ?_⟩, fun hj => ⟨?_, ?_⟩⟩
  · simp only [ff_of_lt hj, BitVec.getLsbD_xor]
  · simp only [gg_of_lt hj, BitVec.getLsbD_xor]
  · simp only [ff_of_le hj, BitVec.getLsbD_or, BitVec.getLsbD_and, or_pairwise_and_eq_majority]
  · simp only [gg_of_le hj, BitVec.getLsbD_or, BitVec.getLsbD_and, BitVec.getLsbD_not, decide_eq_true hk,
      Bool.true_and, or_guarded_and_eq_ite]

/-! ## ROUND (R151) -/

/-- Reducing the amount modulo 32 first changes nothing (R11). -/
theorem rotl_mod_width (x : Word) (n : Nat) : rotl x (n % 32) = rotl x n := by
  simp only [rotl, Nat.mod_mod]

/-- SS1 with the round constant's rotation reduced modulo 32, as R141 writes it. -/
theorem ss1_eq (c : Config) (r : Words8) (j : BitVec 6) :
    ss1 c r j = rotl (rotl r[0] 12 + r[4] + rotl (roundConstant c j) (j.toNat % 32)) 7 := by
  rw [rotl_mod_width, ss1]

/-- Settles O27: the registers of R150 are the model's round, and ROUND has one effect for each side of j = 63. -/
theorem roundUpdatesTheWorkingRegisters : Obligations.RoundUpdatesTheWorkingRegisters := by
  intro s hphase A B C D E F G H j T FF GG SS1 SS2 TT1 TT2 regs
  have hss1 : SS1 = ss1 s.cfg s.regs s.j := (ss1_eq s.cfg s.regs s.j).symm
  have hregs : regs = roundStep s.cfg s.w s.j s.regs := by
    simp only [regs, TT1, TT2, SS2, hss1]
    rfl
  rw [hregs]
  exact ⟨fun hj => (Effect.lastRound hphase hj).exec_eq, fun hj => (Effect.round hphase hj).exec_eq⟩

end Sys2Proof.Machine
end

section
/-! PROOFS. The statements of 43_accumulator.md: FEED (R172, R173), the digest (R174, R175, R55, R62), and the job's
course to the whole-message function (R176, R152, R127). -/

namespace Sys2Proof.Machine

/-! ## The job's course (R176) -/

theorem State.OnCourse.raise {s : State} (h : s.OnCourse) (f : ErrFlag) : (s.raise f).OnCourse := by
  cases f <;> exact { h with }

theorem State.OnCourse.answer {s : State} (h : s.OnCourse) (v : Word) : (s.answer v).OnCourse := { h with }

/-- In ROUND, round j brings the working registers from j rounds to j + 1. -/
theorem State.OnCourse.roundStep_eq {s : State} (h : s.OnCourse) (hp : s.phase = .round) :
    roundStep s.cfg s.w s.j s.regs = rounds s.cfg s.w (s.j.toNat + 1) s.cv := by
  rw [rounds_succ, BitVec.ofNat_toNat, BitVec.setWidth_eq, ← h.working hp]

/-- In FEED, the feed-forward is Compress of the current block, so it chains one block more. -/
theorem State.OnCourse.feedForward_eq {s : State} (h : s.OnCourse) (hinv : s.Inv) (hp : s.phase = .feed) :
    feedForward s.regs s.cv = chainAfter s.cfg s.msg s.len.toNat (s.blk + 1).toNat := by
  have hbusy : s.phase ≠ .idle := by simp [hp]
  calc feedForward s.regs s.cv
      = compress s.cfg s.cv (padBlock s.msg s.len.toNat s.blk.toNat) := by
        rw [h.finished hp, h.sched (.inr hp), compress]
    _ = chainAfter s.cfg s.msg s.len.toNat (s.blk.toNat + 1) := by rw [chainAfter_succ, ← h.chain hbusy]
    _ = chainAfter s.cfg s.msg s.len.toNat (s.blk + 1).toNat := by rw [blk_succ (hinv.blk_lt hbusy)]

/-- Every effect keeps the job on course: those in IDLE have no course to keep, and each micro-operation brings the
datapath to where its next phase expects it. -/
theorem Effect.onCourse {s t : State} {i : Instr} (he : Effect s i t) (hinv : s.Inv) (h : s.OnCourse) :
    t.OnCourse := by
  cases he with
  | nop | idle | writeIgnored | byteDropped => exact h
  | readRegister | readByte => exact h.answer _
  | illegal | startBusy | lenBusy | byteBusy => exact h.raise _
  | startTooLong _ hp | lenSet hp | byteSet _ hp => exact .of_idle hp
  | clear | feedLast => exact .of_idle rfl
  | startJob => exact { chain := fun _ => rfl, sched := nofun, working := nofun, finished := nofun }
  | expand hp =>
    exact {
      chain := fun _ => h.chain (by simp [hp])
      sched := fun _ => rfl
      working := fun _ => rfl
      finished := nofun }
  | round hp hj =>
    exact { h with
      working := fun _ => by rw [h.roundStep_eq hp, j_succ hj]
      finished := fun hf => by simp [hp] at hf }
  | lastRound hp hj =>
    exact {
      chain := fun _ => h.chain (by simp [hp])
      sched := fun _ => h.sched (.inl hp)
      working := nofun
      finished := fun _ => by rw [h.roundStep_eq hp, hj]; rfl }
  | feedMore hp =>
    exact {
      chain := fun _ => h.feedForward_eq hinv hp
      sched := nofun
      working := nofun
      finished := nofun }

/-- Settles O53: under the invariant, which is kept too, every effect keeps the course, and a reset ends the job. -/
theorem everyStepKeepsTheJobOnCourse : Obligations.EveryStepKeepsTheJobOnCourse := by
  intro s t hinv h hst
  have hboth : t.Inv ∧ t.OnCourse :=
    step_keeps (P := fun u => u.Inv ∧ u.OnCourse)
      (fun _ _ _ ⟨hui, huc⟩ => ⟨{ hui with }, { huc with }⟩)
      (fun _ _ _ ⟨hui, huc⟩ he => ⟨he.inv hui, he.onCourse hui huc⟩)
      (fun _ d ⟨hui, _⟩ => ⟨hui.resetEvent d, .of_idle rfl⟩)
      ⟨hinv, h⟩ hst
  exact hboth.2

/-! ## The steps that end with DONE (R176, R175, R62) -/

/-- A step that ends with DONE set is no reset: it is one instruction's effect, after the lists gave up their turn and
line. Where nothing happens it is NOP's. -/
theorem step_effect_of_done {s t : State} (h : step s = .next t) (hdone : t.done = true) :
    ∃ ts ps i, Effect { s with turns := ts, program := ps } i t := by
  obtain ⟨ts, ps, rfl | ⟨i, hi⟩ | ⟨d, rfl⟩⟩ := step_next h
  · exact ⟨ts, ps, .nop, .nop (.inl rfl)⟩
  · exact ⟨ts, ps, i, exec_effect hi⟩
  · simp at hdone

/-- The FEED that sets DONE has fed the last block of a job on course: CV is the hash of the message. -/
theorem Effect.messageHash_of_done {s t : State} {i : Instr} (he : Effect s i t) (hinv : s.Inv) (h : s.OnCourse)
    (hs : s.done = false) (ht : t.done = true) :
    t.cv = messageHash t.cfg t.msg t.len.toNat ∧ t.msg = s.msg ∧ t.len = s.len ∧
      t.blk.toNat = blockCount t.len.toNat := by
  cases he with
  | feedLast hp hb =>
    refine ⟨?_, rfl, rfl, hb⟩
    rw [messageHash, ← hb]
    exact h.feedForward_eq hinv hp
  | _ => simp_all

/-- Settles O54: the step is FEED's effect, and the lists are no part of either invariant. -/
theorem doneMeansTheMessageHash : Obligations.DoneMeansTheMessageHash := by
  intro s t hinv h hst hs ht
  obtain ⟨ts, ps, i, he⟩ := step_effect_of_done hst ht
  exact he.messageHash_of_done { hinv with } { h with } hs ht

/-- In IDLE only an accepted START writes CV, and it clears DONE. -/
theorem Effect.cv_eq_of_done {s t : State} {i : Instr} (he : Effect s i t) (hidle : s.phase = .idle)
    (ht : t.done = true) : t.cv = s.cv := by
  cases he with
  | startJob => cases ht
  | feedMore hp | feedLast hp => simp [hidle] at hp
  | _ => simp

/-- Settles O55: DONE means IDLE (R45 (d)), and a DIGEST register reads CV. -/
theorem digestStaysWhileDone : Obligations.DigestStaysWhileDone := by
  intro s t hinv hst hs ht i
  obtain ⟨ts, ps, instr, he⟩ := step_effect_of_done hst ht
  have hcv : t.cv = s.cv := he.cv_eq_of_done (hinv.done_idle hs) ht
  simp only [State.readRegister, hcv]

/-! ## The digest's bytes (R174, R55) -/

/-- Byte k of a word, the most significant first, is bits 31 − 8k to 24 − 8k. -/
theorem getElem?_be32Bytes (x : Word) {k : Nat} (hk : k < 4) :
    (be32Bytes x)[k]? = some (x.extractLsb' (24 - 8 * k) 8) := by
  obtain rfl | rfl | rfl | rfl : k = 0 ∨ k = 1 ∨ k = 2 ∨ k = 3 := by omega
  all_goals rfl

theorem length_be32Bytes (x : Word) : (be32Bytes x).length = 4 := rfl

/-- Each word of a list takes four bytes, so word i begins at byte 4i. -/
theorem getElem?_flatMap_be32Bytes (ws : List Word) (i : Nat) {k : Nat} (hk : k < 4) :
    (ws.flatMap be32Bytes)[4 * i + k]? = ws[i]?.map fun x => x.extractLsb' (24 - 8 * k) 8 := by
  induction ws generalizing i with
  | nil => rfl
  | cons x ws ih =>
    rw [List.flatMap_cons]
    cases i with
    | zero =>
      rw [List.getElem?_append_left (by rw [length_be32Bytes]; omega), Nat.mul_zero, Nat.zero_add,
        getElem?_be32Bytes x hk]
      rfl
    | succ i =>
      have hskip : 4 * (i + 1) + k - 4 = 4 * i + k := by omega
      rw [List.getElem?_append_right (by rw [length_be32Bytes]; omega), length_be32Bytes, hskip, ih i,
        List.getElem?_cons_succ]

/-- Settles O33: eight words of four bytes each. -/
theorem digestBytesAreBigEndian : Obligations.DigestBytesAreBigEndian := by
  refine fun cv => ⟨?_, fun i k hi hk => ?_⟩
  · simp [digestBytes, List.length_flatMap, length_be32Bytes]
  · rw [digestBytes, getElem?_flatMap_be32Bytes cv.toList i hk]
    simp [hi]

/-! ## FEED (R172, R173) -/

/-- Settles O28: FEED has one effect for each side of blk = N(LEN). -/
theorem feedFoldsIntoTheChainingValue : Obligations.FeedFoldsIntoTheChainingValue :=
  fun s hphase => ⟨feedForward s.regs s.cv, getElem_feedForward s.regs s.cv,
    fun hlast => (Effect.feedLast hphase hlast).exec_eq, fun hmore => (Effect.feedMore hphase hmore).exec_eq⟩

end Sys2Proof.Machine
end

section
/-! PROOFS. The statements of 44_control.md: what each command and each host transaction does (R190 to R200), which
micro-operation the sequencer runs and where it goes (R205, R206), and how many steps a job takes (R207). -/

namespace Sys2Proof

/-! ## The offsets of a register transaction (R200) -/

theorem isRegOffset_iff {off : Word} : isRegOffset off = true ↔ off.toNat % 4 = 0 ∧ off.toNat < 0x1000 := by
  simp [isRegOffset]

theorem not_isRegOffset_iff {off : Word} : ¬ isRegOffset off = true ↔ off.toNat % 4 ≠ 0 ∨ 0x1000 ≤ off.toNat := by
  rw [isRegOffset_iff]
  omega

theorem exists_offsetProblem {off : Word} (h : ¬ isRegOffset off = true) : ∃ r, offsetProblem off = some r :=
  Option.ne_none_iff_exists'.mp (mt offsetProblem_eq_none.mp h)

/-- A record is rejected exactly when it is a register transaction at an illegal offset. -/
theorem decodeTxn_eq_error {t : HostTxn} :
    (∃ r, decodeTxn t = .error r) ↔ (t.kind = 0 ∨ t.kind = 1) ∧ ¬ isRegOffset t.addr = true := by
  have hkind : ∀ k : BitVec 2, k = 0 ∨ k = 1 ∨ k = 2 ∨ k = 3 := by decide
  have herror : (∃ r, decodeTxn t = .error r) ↔ ∀ i, decodeTxn t ≠ .ok i := by cases decodeTxn t <;> simp
  simp only [herror, ne_eq, decodeTxn_eq_ok]
  rcases hkind t.kind with h | h | h | h <;> simp [h]

/-- Settles O5: the records that do not decode are those `decodeTxn_eq_ok` leaves out. -/
theorem onlyIllegalRegisterOffsetsAreRejected : Obligations.OnlyIllegalRegisterOffsetsAreRejected :=
  fun _ => decodeTxn_eq_error.trans (and_congr_right fun _ => not_isRegOffset_iff)

end Sys2Proof

namespace Sys2Proof.Machine

/-! ## The commands (R190 to R194) -/

/-- A REG_WR to CMD performs the command its value decodes to (R190). -/
theorem exec_regWr_cmd (v : Word) (s : State) : exec (.regWr cmdOffset v) s = exec (decodeCmd v).toInstr s :=
  Performs.exec_eq (.inr ⟨v, rfl, rfl⟩) s

/-- Settles O13: 0 is NOP's word, and NOP's effect is none. -/
theorem nopHasNoEffectInEveryPhase : Obligations.NopHasNoEffectInEveryPhase :=
  ⟨decode_encode (i := .nop) rfl, fun s => ⟨rfl, exec_regWr_cmd 0 s⟩⟩

/-- Settles O14: an illegal word decodes to ILLEGAL, which raises CMD_ERR. -/
theorem illegalCommandOnlyRaisesCmdErr : Obligations.IllegalCommandOnlyRaisesCmdErr := by
  intro v s hv
  have hdecode : decodeCmd v = .illegal v := decodeCmd_illegal_self.mpr hv
  have hperforms : Performs (.regWr cmdOffset v) (.illegal v) := .inr ⟨v, rfl, hdecode⟩
  exact ⟨decode_cmd_eq_ok.mpr hdecode, rfl, (Effect.illegal hperforms).exec_eq⟩

/-- Settles O15: the three effects of START. -/
theorem startBeginsAJobOrRaisesAFlag : Obligations.StartBeginsAJobOrRaisesAFlag := by
  have hstart : Performs .start .start := .inl rfl
  refine ⟨decode_encode (i := .start) rfl, fun s => ⟨exec_regWr_cmd 1 s, ?busy, ?tooLong, ?job⟩⟩
  case busy => exact fun hbusy => (Effect.startBusy hstart hbusy).exec_eq
  case tooLong => exact fun hidle hlen => (Effect.startTooLong hstart hidle hlen).exec_eq
  case job => exact fun hidle hlen => (Effect.startJob hstart hidle hlen).exec_eq

/-- Settles O16: 2 is CLEAR's word, and CLEAR has one effect. -/
theorem clearAbortsAndClearsTheFlags : Obligations.ClearAbortsAndClearsTheFlags :=
  ⟨decode_encode (i := .clear) rfl, fun s => ⟨exec_regWr_cmd 2 s, rfl⟩⟩

/-- Every command answers a next state. -/
theorem exists_exec_command (c : Command) (s : State) : ∃ t, exec c.toInstr s = .next t := by
  have hc : Performs c.toInstr c := .inl rfl
  cases c with
  | nop => exact ⟨_, (Effect.nop hc).exec_eq⟩
  | clear => exact ⟨_, (Effect.clear hc).exec_eq⟩
  | illegal v => exact ⟨_, (Effect.illegal hc).exec_eq⟩
  | start =>
    by_cases hidle : s.phase = .idle
    · rcases Nat.lt_or_ge s.cfg.msgCap s.len.toNat with hlen | hlen
      · exact ⟨_, (Effect.startTooLong hc hidle hlen).exec_eq⟩
      · exact ⟨_, (Effect.startJob hc hidle hlen).exec_eq⟩
    · exact ⟨_, (Effect.startBusy hc hidle).exec_eq⟩

/-! ## The host transactions (R196 to R200) -/

/-- The register map as values (R34, R196). -/
theorem readRegister_registerAt (s : State) {off : Word} (haligned : off.toNat % 4 = 0) :
    s.readRegister (registerAt off) =
      if off = 0x000 then 0x00000000
      else if off = 0x004 then s.statusWord
      else if off = 0x008 then s.len
      else if off = 0x00C then s.blk
      else if h : 0x020 ≤ off.toNat ∧ off.toNat < 0x040 then s.cv[(off.toNat - 0x020) / 4]'(by omega)
      else 0x00000000 := by
  simp only [registerAt, haligned, and_true]
  repeat' split
  all_goals rfl

/-- Settles O18: REG_RD answers the register's value. -/
theorem registerReadReturnsTheMap : Obligations.RegisterReadReturnsTheMap := by
  intro s off haligned hrange
  rw [exec_regRd (isRegOffset_iff.mpr ⟨haligned, hrange⟩), readRegister_registerAt s haligned]
  rfl

/-- Settles O20: the offsets of CMD and LEN, and any other. -/
theorem registerWriteCases : Obligations.RegisterWriteCases := by
  intro s off v haligned hrange
  refine ⟨?cmd, ?lenIdle, ?lenBusy, ?ignored⟩
  case cmd =>
    rintro rfl
    have hexec := exec_regWr_cmd v s
    exact ⟨hexec, hexec ▸ exists_exec_command (decodeCmd v) s⟩
  case lenIdle => rintro rfl hidle; exact (Effect.lenSet hidle).exec_eq
  case lenBusy => rintro rfl hbusy; exact (Effect.lenBusy hbusy).exec_eq
  case ignored =>
    exact fun hcmd hlen => exec_regWr_ignored (isRegOffset_iff.mpr ⟨haligned, hrange⟩)
      (mt registerAt_cmd.mp hcmd) (mt registerAt_len.mp hlen) v s

/-- Settles O21: MSG_RD answers the byte `readMessage` reads. -/
theorem messageReadReturnsTheByte : Obligations.MessageReadReturnsTheByte := by
  intro s a
  have hexec : exec (.msgRd a) s = .next (s.answer (s.readMessage a)) := Effect.readByte.exec_eq
  refine ⟨fun hbacked => ?_, fun hbeyond => ?_⟩
  · rw [hexec, State.readMessage, if_pos hbacked]
    rfl
  · rw [hexec, State.readMessage, if_neg (Nat.not_lt.mpr hbeyond)]
    rfl

/-- Settles O22: the three effects of MSG_WR, the range check first (R235). -/
theorem messageWriteStoresOneByteOrIsDropped : Obligations.MessageWriteStoresOneByteOrIsDropped := by
  intro s a v hwf
  refine ⟨?beyond, ?busy, ?stored⟩
  case beyond => exact fun hbeyond => (Effect.byteDropped hbeyond).exec_eq
  case busy => exact fun hbacked hbusy => (Effect.byteBusy hbacked hbusy).exec_eq
  case stored =>
    exact fun hbacked hidle => ⟨s.msg.write a.toNat (dataByte v), (Effect.byteSet hbacked hidle).exec_eq,
      Memory.wf_write hwf _ _, fun c => Memory.read_write hwf a.toNat c (dataByte v)⟩

/-- A register transaction at an illegal offset is refused (R200). -/
theorem atLegalOffset_refused {off : Word} (h : ¬ isRegOffset off = true)
    (o : Host.Outcome State Fault Refusal) : ∃ r, atLegalOffset off o = .refused (.badRecord r) := by
  obtain ⟨r, hr⟩ := exists_offsetProblem h
  exact ⟨r, by rw [atLegalOffset, hr]⟩

/-- The host's turn is refused when its next record is a register transaction at an illegal offset. -/
theorem hostTurn_refused {s : State} {t : HostTxn} {lines : List HostLine} (hline : s.program = .txn t :: lines)
    (hkind : t.kind = 0 ∨ t.kind = 1) (haddr : ¬ isRegOffset t.addr = true) :
    ∃ r, hostTurn s = .refused (.badRecord r) := by
  obtain ⟨r, hr⟩ := decodeTxn_eq_error.mpr ⟨hkind, haddr⟩
  exact ⟨r, by simp only [hostTurn_txn hline, performTxn, decode, hr]⟩

/-- Settles O23: the two meanings check the offset, and the host's turn decodes the record. -/
theorem badRegisterTransactionsHaveNoStep : Obligations.BadRegisterTransactionsHaveNoStep := by
  intro s off v d hbad
  have hoff : ¬ isRegOffset off = true := not_isRegOffset_iff.mpr hbad
  refine ⟨atLegalOffset_refused hoff _, atLegalOffset_refused hoff _, fun turns lines hturns hline => ?_,
    fun turns lines hturns hline => ?_⟩
  · rw [step_host hturns]
    exact hostTurn_refused hline (.inl rfl) hoff
  · rw [step_host hturns]
    exact hostTurn_refused hline (.inr rfl) hoff

/-- A host turn whose next line is a record that decodes to `i`. -/
theorem hostTurn_of_decode {s : State} {t : HostTxn} {i : Instr} {lines : List HostLine}
    (hline : s.program = .txn t :: lines) (hdecode : decode (.hosttxn t) = .ok i) :
    hostTurn s = exec i { s with program := lines } :=
  (hostTurn_txn hline).trans (performTxn_of_decode hdecode _)

/-- Settles O7: the host's turn, listed or by default, takes the line and performs the record. -/
theorem hostTurnRunsTheDecodedRecord : Obligations.HostTurnRunsTheDecodedRecord := by
  refine ⟨fun s t i turns lines hline hdecode => ⟨fun hturns => ?_, fun hturns hidle => ?_⟩,
    fun s v i hdecode => ?_⟩
  · exact (step_host hturns).trans (hostTurn_of_decode (s := { s with turns := turns }) hline hdecode)
  · exact (step_idle hturns hidle).trans (hostTurn_of_decode hline hdecode)
  · cases hdecode
    exact exec_regWr_cmd v s

/-! ## The sequencer (R205, R206) -/

/-- Outside its phase a phase code is refused (log 12). -/
theorem whenPhase_refused {p : Phase} {s : State} (h : s.phase ≠ p) (o : Host.Outcome State Fault Refusal) :
    whenPhase p s o = .refused (.notEnabled p) := if_neg h

/-- Settles O24: each phase code's meaning begins with the check of its phase. -/
theorem phaseCodesRunOnlyInTheirPhase : Obligations.PhaseCodesRunOnlyInTheirPhase :=
  fun _ => ⟨fun hidle => (Effect.idle hidle).exec_eq, fun h => whenPhase_refused h _, fun h => whenPhase_refused h _,
    fun h => whenPhase_refused h _, fun h => whenPhase_refused h _⟩

/-- A turn given to an idle core changes nothing (log 9). -/
theorem coreTurn_idle {s : State} (hidle : s.phase = .idle) : coreTurn s = .next s := by
  rw [coreTurn, hidle]
  exact (Effect.idle hidle).exec_eq

/-- Settles O8: the phase's code decodes to the instruction the phase selects. -/
theorem coreTurnRunsThePhase : Obligations.CoreTurnRunsThePhase := by
  intro s turns i hdecode
  have hi : s.phase.toInstr = i := by simpa only [decode, decodePhase_code, Except.ok.injEq] using hdecode
  subst hi
  exact ⟨fun hturns => step_core hturns, fun hturns hbusy => step_busy hturns hbusy,
    fun hturns hidle => (step_core hturns).trans (coreTurn_idle hidle)⟩

/-- Settles O47: each row is one effect, and the invariant bounds blk and, in FEED, fixes j. -/
theorem sequencerTransitions : Obligations.SequencerTransitions := by
  intro s hinv
  have hstart : Performs .start .start := .inl rfl
  refine ⟨?expand, ?round, ?lastRound, ?feed, ?lastFeed, ?start, ?startTooLong,
    ⟨_, (Effect.clear (.inl rfl)).exec_eq, rfl, rfl, rfl⟩, fun d => ⟨rfl, rfl, rfl⟩⟩
  case expand =>
    intro hp
    have hbusy : s.phase ≠ .idle := by simp [hp]
    exact ⟨_, (Effect.expand hp (hinv.len_le hbusy) (hinv.blk_lt hbusy)).exec_eq, rfl, rfl, rfl⟩
  case round =>
    intro hp hlt
    have hj : s.j ≠ 63 := by bv_omega
    exact ⟨_, (Effect.round hp hj).exec_eq, hp, j_succ hj, rfl⟩
  case lastRound => exact fun hp hj => ⟨_, (Effect.lastRound hp hj).exec_eq, rfl, hj, rfl⟩
  case feed =>
    intro hp hlt
    have hblk : (s.blk + 1).toNat = s.blk.toNat + 1 := blk_succ (by omega)
    exact ⟨_, (Effect.feedMore hp (by omega)).exec_eq, rfl, hinv.feed_j hp, hblk⟩
  case lastFeed =>
    intro hp heq
    have hblk : (s.blk + 1).toNat = blockCount s.len.toNat := (blk_succ (by omega)).trans heq
    exact ⟨_, (Effect.feedLast hp hblk).exec_eq, rfl, rfl, hinv.feed_j hp, hblk⟩
  case start => exact fun hp hlen => ⟨_, (Effect.startJob hstart hp hlen).exec_eq, rfl, rfl, rfl⟩
  case startTooLong => exact fun hp hlen => ⟨_, (Effect.startTooLong hstart hp hlen).exec_eq, hp, rfl, rfl⟩

/-! ## The place in the job (R207) -/

theorem jobPosition_expand {s : State} (hp : s.phase = .expand) : s.jobPosition = 66 * s.blk.toNat := by
  rw [State.jobPosition, hp]

theorem jobPosition_round {s : State} (hp : s.phase = .round) :
    s.jobPosition = 66 * s.blk.toNat + 1 + s.j.toNat := by
  rw [State.jobPosition, hp]

theorem jobPosition_feed {s : State} (hp : s.phase = .feed) : s.jobPosition = 66 * s.blk.toNat + 65 := by
  rw [State.jobPosition, hp]

/-- The job is one place on, or was at its last place and has ended with DONE. -/
def State.MovesJobTo (s t : State) : Prop :=
  (s.jobPosition + 1 < 66 * blockCount s.len.toNat ∧ t.phase ≠ .idle ∧ t.jobPosition = s.jobPosition + 1) ∨
    (s.jobPosition + 1 = 66 * blockCount s.len.toNat ∧ t.phase = .idle ∧ t.done = true)

/-- Under the invariant a busy core has a step, and it moves the job: the rows of R206's table, with the place each
one leaves. -/
theorem State.Inv.exists_coreStep {s : State} (hinv : s.Inv) (hbusy : s.phase ≠ .idle) :
    ∃ t, exec s.phase.toInstr s = .next t ∧ s.MovesJobTo t := by
  obtain ⟨hexpand, hround, hlastRound, hfeed, hlastFeed, -⟩ := sequencerTransitions s hinv
  have hblk : s.blk.toNat < blockCount s.len.toNat := hinv.blk_lt hbusy
  cases hp : s.phase with
  | idle => exact absurd hp hbusy
  | expand =>
    obtain ⟨t, ht, htp, htj, htb⟩ := hexpand hp
    have hs := jobPosition_expand hp
    have hpos : t.jobPosition = s.jobPosition + 1 := by rw [jobPosition_round htp, htj, htb, hs]; rfl
    exact ⟨t, ht, .inl ⟨by omega, by simp [htp], hpos⟩⟩
  | round =>
    have hs := jobPosition_round hp
    by_cases hj : s.j = 63
    · obtain ⟨t, ht, htp, -, htb⟩ := hlastRound hp hj
      have hj' : s.j.toNat = 63 := by rw [hj]; rfl
      have hpos : t.jobPosition = s.jobPosition + 1 := by rw [jobPosition_feed htp, htb, hs, hj']
      exact ⟨t, ht, .inl ⟨by omega, by simp [htp], hpos⟩⟩
    · have hlt : s.j.toNat < 63 := by bv_omega
      obtain ⟨t, ht, htp, htj, htb⟩ := hround hp hlt
      have hpos : t.jobPosition = s.jobPosition + 1 := by rw [jobPosition_round htp, htj, htb, hs]; rfl
      exact ⟨t, ht, .inl ⟨by omega, by simp [htp], hpos⟩⟩
  | feed =>
    have hs := jobPosition_feed hp
    by_cases hlast : s.blk.toNat + 1 = blockCount s.len.toNat
    · obtain ⟨t, ht, htp, htd, -⟩ := hlastFeed hp hlast
      exact ⟨t, ht, .inr ⟨by omega, htp, htd⟩⟩
    · obtain ⟨t, ht, htp, -, htb⟩ := hfeed hp (by omega)
      have hpos : t.jobPosition = s.jobPosition + 1 := by rw [jobPosition_expand htp, htb, hs]; rfl
      exact ⟨t, ht, .inl ⟨by omega, by simp [htp], hpos⟩⟩

/-- While BUSY only the micro-operations and CLEAR touch the phase, j, blk or LEN. -/
theorem Effect.job_eq {s t : State} {i : Instr} (he : Effect s i t) (hbusy : s.phase ≠ .idle) (hexpand : i ≠ .expand)
    (hround : i ≠ .round) (hfeed : i ≠ .feed) (hclear : ¬ Performs i .clear) :
    t.phase = s.phase ∧ t.j = s.j ∧ t.blk = s.blk ∧ t.len = s.len := by
  cases he with
  | startJob _ hp | lenSet hp => exact absurd hp hbusy
  | clear hi => exact absurd hi hclear
  | expand | round | lastRound | feedMore | feedLast => contradiction
  | _ => simp

/-- Settles O48: the one step there is, and the effects of the other instructions. -/
theorem eachCoreStepMovesTheJobOnePlace : Obligations.EachCoreStepMovesTheJobOnePlace := by
  intro s t hinv hbusy
  refine ⟨fun hst => ?_, fun i hexpand hround hfeed hclear hclearWord hst => ?_⟩
  · obtain ⟨u, hsu, hmoves⟩ := hinv.exists_coreStep hbusy
    obtain rfl : u = t := Host.Outcome.next.inj (hsu.symm.trans hst)
    exact hmoves
  · have hnoClear : ¬ Performs i .clear := fun hi => (performs_clear.mp hi).elim hclear hclearWord
    exact (exec_effect hst).job_eq hbusy hexpand hround hfeed hnoClear

/-! ## No step faults (R205, R200) -/

/-- Under the invariant every core turn has a next state. -/
theorem State.Inv.exists_coreTurn {s : State} (hinv : s.Inv) : ∃ t, coreTurn s = .next t := by
  by_cases hidle : s.phase = .idle
  · exact ⟨s, coreTurn_idle hidle⟩
  · obtain ⟨t, ht, -⟩ := hinv.exists_coreStep hidle
    exact ⟨t, ht⟩

/-- A REG_WR at a legal offset answers a next state. -/
theorem exists_exec_regWr {off : Word} (hl : isRegOffset off = true) (v : Word) (s : State) :
    ∃ t, exec (.regWr off v) s = .next t := by
  by_cases hcmd : off = cmdOffset
  · subst hcmd
    exact exec_regWr_cmd v s ▸ exists_exec_command _ s
  by_cases hlen : off = lenOffset
  · subst hlen
    exact ⟨_, exec_regWr_len v s⟩
  · exact ⟨s, exec_regWr_ignored hl (mt registerAt_cmd.mp hcmd) (mt registerAt_len.mp hlen) v s⟩

/-- Whatever a record decodes to answers a next state. -/
theorem exists_exec_of_decodeTxn {t : HostTxn} {i : Instr} (h : decodeTxn t = .ok i) (s : State) :
    ∃ u, exec i s = .next u := by
  obtain ⟨-, hl, rfl⟩ | ⟨-, hl, rfl⟩ | ⟨-, rfl⟩ | ⟨-, rfl⟩ := decodeTxn_eq_ok.mp h
  · exact ⟨_, exec_regRd hl s⟩
  · exact exists_exec_regWr hl _ s
  · exact ⟨_, Effect.readByte.exec_eq⟩
  · exact ⟨s.writeMessage t.addr (dataByte t.data), rfl⟩

/-- The host's next line is a register transaction at an illegal offset (R200). -/
def State.BadRecordNext (s : State) : Prop :=
  ∃ t lines, s.program = .txn t :: lines ∧ (t.kind = 0 ∨ t.kind = 1) ∧ (t.addr.toNat % 4 ≠ 0 ∨ 0x1000 ≤ t.addr.toNat)

/-- A host turn has a next state, or is refused for the record it finds. -/
theorem hostTurn_next_or_refused (s : State) :
    (∃ t, hostTurn s = .next t) ∨ (∃ r, hostTurn s = .refused (.badRecord r)) ∧ s.BadRecordNext := by
  cases hprogram : s.program with
  | nil => exact .inl ⟨s, hostTurn_nil hprogram⟩
  | cons line lines =>
    cases line with
    | poll mask val =>
      by_cases hmatch : s.statusWord &&& mask = val
      · exact .inl ⟨_, hostTurn_poll_done hprogram hmatch⟩
      · exact .inl ⟨s, hostTurn_poll_wait hprogram hmatch⟩
    | txn t =>
      cases hdecode : decodeTxn t with
      | ok i =>
        obtain ⟨u, hu⟩ := exists_exec_of_decodeTxn hdecode { s with program := lines }
        exact .inl ⟨u, (hostTurn_of_decode hprogram hdecode).trans hu⟩
      | error r =>
        obtain ⟨hkind, haddr⟩ := decodeTxn_eq_error.mp ⟨r, hdecode⟩
        exact .inr ⟨hostTurn_refused hprogram hkind haddr, t, lines, hprogram, hkind, not_isRegOffset_iff.mp haddr⟩

/-- Settles O56: the turn that is due is the core's, the host's or a reset, whether listed or by default. -/
theorem invariantStatesNeverFault : Obligations.InvariantStatesNeverFault := by
  intro s hinv
  cases hturns : s.turns with
  | nil =>
    by_cases hidle : s.phase = .idle
    · rw [step_idle hturns hidle]
      exact hostTurn_next_or_refused s
    · rw [step_busy hturns hidle]
      exact .inl hinv.exists_coreTurn
  | cons turn rest =>
    cases turn with
    | core =>
      have hrest : State.Inv { s with turns := rest } := { hinv with }
      rw [step_core hturns]
      exact .inl hrest.exists_coreTurn
    | host =>
      rw [step_host hturns]
      exact hostTurn_next_or_refused { s with turns := rest }
    | reset d => exact .inl ⟨_, step_reset hturns⟩

/-! ## A job left to run (R207, R176)

With no turn listed a busy core steps. Each block is EXPAND, 64 ROUNDs and FEED, and its 66 steps compress it into CV. -/

/-- `n` steps lead from `s` to `t`, and the core is busy before each of them. -/
def BusyRun (n : Nat) (s t : State) : Prop :=
  run n s = .next t ∧ ∀ k < n, ∃ u, run k s = .next u ∧ u.phase ≠ .idle

theorem BusyRun.refl (s : State) : BusyRun 0 s s := ⟨rfl, nofun⟩

theorem BusyRun.trans {m n : Nat} {s t u : State} (hst : BusyRun m s t) (htu : BusyRun n t u) :
    BusyRun (m + n) s u := by
  refine ⟨(run_add hst.1 n).trans htu.1, fun k hk => ?_⟩
  rcases Nat.lt_or_ge k m with hkm | hmk
  · exact hst.2 k hkm
  · obtain ⟨r, rfl⟩ := Nat.exists_eq_add_of_le hmk
    rw [run_add hst.1 r]
    exact htu.2 r (by omega)

/-- With no turn listed, the effect of a busy core's micro-operation is one step (R205). -/
theorem Effect.busyRun {s t : State} {p : Phase} (he : Effect s p.toInstr t) (hp : s.phase = p) (hbusy : p ≠ .idle)
    (hturns : s.turns = []) : BusyRun 1 s t := by
  subst hp
  refine ⟨by rw [run, step_busy hturns hbusy, he.exec_eq]; rfl, fun k hk => ⟨s, ?_, hbusy⟩⟩
  rw [Nat.lt_one_iff.mp hk, run]

/-- The state after EXPAND of the current block and the first `k` of its rounds (R126, R151). -/
def State.afterRounds (s : State) (k : Nat) : State :=
  let w := expandBlock (padBlock s.msg s.len.toNat s.blk.toNat)
  { s with w := w, regs := rounds s.cfg w k s.cv, j := BitVec.ofNat 6 k, phase := .round }

/-- The state before FEED of the current block (R152): all its rounds are done, and j stays 63. -/
def State.beforeFeed (s : State) : State :=
  { s.afterRounds 64 with j := 63, phase := .feed }

/-- FEED's feed-forward ends the compression of the current block (R172, R176). -/
theorem State.feedForward_beforeFeed (s : State) :
    feedForward s.beforeFeed.regs s.beforeFeed.cv =
      compress s.cfg s.cv (padBlock s.msg s.len.toNat s.blk.toNat) := rfl

section
variable {s : State} (hturns : s.turns = []) (hphase : s.phase = .expand) (hlen : s.len.toNat ≤ s.cfg.msgCap)
  (hblk : s.blk.toNat < blockCount s.len.toNat)
include hturns hphase hlen hblk

/-- EXPAND and `k` rounds take `1 + k` steps, up to the last round but one. -/
theorem busyRun_afterRounds {k : Nat} (hk : k < 64) : BusyRun (1 + k) s (s.afterRounds k) := by
  induction k with
  | zero => exact (Effect.expand hphase hlen hblk).busyRun hphase (by decide) hturns
  | succ k ih =>
    have hj : BitVec.ofNat 6 k ≠ 63 := by bv_omega
    have hround : Effect (s.afterRounds k) .round (s.afterRounds (k + 1)) := by
      have he := Effect.round (s := s.afterRounds k) rfl hj
      have hnext : BitVec.ofNat 6 k + 1 = BitVec.ofNat 6 (k + 1) := (BitVec.ofNat_add k 1).symm
      simpa only [State.afterRounds, rounds_succ, hnext] using he
    exact (ih (by omega)).trans (hround.busyRun (p := .round) rfl (by decide) hturns)

/-- EXPAND and all 64 rounds take 65 steps. -/
theorem busyRun_beforeFeed : BusyRun 65 s s.beforeFeed :=
  (busyRun_afterRounds hturns hphase hlen hblk (k := 63) (by decide)).trans
    ((Effect.lastRound (s := s.afterRounds 63) rfl rfl).busyRun (p := .round) rfl (by decide) hturns)

end

/-- Where the job of `s` stands, left to run, when its first `q` blocks have been fed: CV is their chain (R176), and
the core is at EXPAND of the next block or, with the last block fed, in IDLE with DONE. -/
structure State.BlocksFed (s : State) (q : Nat) (t : State) : Prop where
  turns : t.turns = []
  cfg : t.cfg = s.cfg
  len : t.len = s.len
  msg : t.msg = s.msg
  blk : t.blk.toNat = q
  cv : t.cv = chainAfter s.cfg s.msg s.len.toNat q
  next : q < blockCount s.len.toNat → t.phase = .expand
  last : q = blockCount s.len.toNat → t.phase = .idle ∧ t.done = true

/-- The next block takes 66 steps. -/
theorem State.BlocksFed.succ {s t : State} {q : Nat} (h : s.BlocksFed q t) (hlen : s.len.toNat ≤ s.cfg.msgCap)
    (hq : q < blockCount s.len.toNat) : ∃ u, BusyRun 66 t u ∧ s.BlocksFed (q + 1) u := by
  have hphase := h.next hq
  have hblk : t.blk.toNat < blockCount t.len.toNat := by rwa [h.blk, h.len]
  have hrun := busyRun_beforeFeed h.turns hphase (by rwa [h.len, h.cfg]) hblk
  have hcv : feedForward t.beforeFeed.regs t.beforeFeed.cv = chainAfter s.cfg s.msg s.len.toNat (q + 1) := by
    rw [t.feedForward_beforeFeed, chainAfter_succ, h.cv, h.cfg, h.msg, h.len, h.blk]
  have hsucc : (t.blk + 1).toNat = q + 1 := by rw [blk_succ hblk, h.blk]
  by_cases hlast : q + 1 = blockCount s.len.toNat
  · have hfeed := Effect.feedLast (s := t.beforeFeed) rfl (show (t.blk + 1).toNat = blockCount t.len.toNat by
      rw [hsucc, hlast, h.len])
    exact ⟨_, hrun.trans (hfeed.busyRun (p := .feed) rfl (by decide) h.turns),
      { h with blk := hsucc, cv := hcv, next := fun hlt => by omega, last := fun _ => ⟨rfl, rfl⟩ }⟩
  · have hfeed := Effect.feedMore (s := t.beforeFeed) rfl (show (t.blk + 1).toNat ≠ blockCount t.len.toNat by
      rwa [hsucc, h.len])
    exact ⟨_, hrun.trans (hfeed.busyRun (p := .feed) rfl (by decide) h.turns),
      { h with blk := hsucc, cv := hcv, next := fun _ => rfl, last := fun heq => absurd heq hlast }⟩

/-- `q` blocks take `66 * q` steps. -/
theorem State.BlocksFed.exists_busyRun {s : State} (h : s.BlocksFed 0 s) (hlen : s.len.toNat ≤ s.cfg.msgCap) {q : Nat}
    (hq : q ≤ blockCount s.len.toNat) : ∃ t, BusyRun (66 * q) s t ∧ s.BlocksFed q t := by
  induction q with
  | zero => exact ⟨s, .refl s, h⟩
  | succ q ih =>
    obtain ⟨t, hst, ht⟩ := ih (by omega)
    obtain ⟨u, htu, hu⟩ := ht.succ hlen hq
    exact ⟨u, hst.trans htu, hu⟩

/-- Settles O57: the blocks are counted up to N(LEN), from the state in which none is fed. -/
theorem jobEndsAfterSixtySixStepsPerBlock : Obligations.JobEndsAfterSixtySixStepsPerBlock := by
  intro s hturns hphase hblk hcv hlen
  have hstart : s.BlocksFed 0 s :=
    { turns := hturns, cfg := rfl, len := rfl, msg := rfl, blk := by rw [hblk]; rfl, cv := hcv
      next := fun _ => hphase, last := fun h0 => absurd h0 (blockCount_pos _).ne }
  obtain ⟨t, ⟨hrun, hbusy⟩, ht⟩ := hstart.exists_busyRun hlen le_rfl
  obtain ⟨hidle, hdone⟩ := ht.last rfl
  exact ⟨⟨t, hrun, hidle, hdone, by rw [ht.blk], ht.len, ht.msg, ht.cv⟩, hbusy⟩

end Sys2Proof.Machine
end

section
/-! PROOFS. The statements of 60_exceptions.md: what sets each error flag (R231 to R234), and that no instruction sets
two of them (R235). -/

namespace Sys2Proof.Machine

/-! ## The causes of the error flags (R231 to R234) -/

/-- An illegal command is the term or the REG_WR to CMD of its own value. -/
theorem performs_illegal {i : Instr} {v : Word} :
    Performs i (.illegal v) ↔ i = .illegal v ∨ i = .regWr 0 v ∧ isIllegalWord v = true := by
  simp [Performs, decodeCmd_illegal, Command.toInstr, cmdOffset]

/-- Only START in IDLE of a message beyond MSG_CAP sets LEN_ERR (R231). -/
theorem Effect.sets_lenErr {s t : State} {i : Instr} (he : Effect s i t) (ht : t.lenErr = true)
    (hs : s.lenErr = false) : Performs i .start ∧ s.phase = .idle ∧ s.cfg.msgCap < s.len.toNat := by
  cases he with
  | startTooLong hi hp hl => exact ⟨hi, hp, hl⟩
  | _ => simp_all

/-- Only an illegal command and START while BUSY set CMD_ERR (R232). -/
theorem Effect.sets_cmdErr {s t : State} {i : Instr} (he : Effect s i t) (ht : t.cmdErr = true)
    (hs : s.cmdErr = false) : (∃ v, Performs i (.illegal v)) ∨ Performs i .start ∧ s.phase ≠ .idle := by
  cases he with
  | illegal hi => exact .inl ⟨_, hi⟩
  | startBusy hi hp => exact .inr ⟨hi, hp⟩
  | _ => simp_all

/-- Only a LEN write and a MSG_WR below MSG_CAP set WR_ERR, both while BUSY (R233). -/
theorem Effect.sets_wrErr {s t : State} {i : Instr} (he : Effect s i t) (ht : t.wrErr = true)
    (hs : s.wrErr = false) :
    s.phase ≠ .idle ∧
      ((∃ v, i = .regWr lenOffset v) ∨ ∃ a v : Word, i = .msgWr a v ∧ a.toNat < s.cfg.msgCap) := by
  cases he with
  | lenBusy hp => exact ⟨hp, .inl ⟨_, rfl⟩⟩
  | byteBusy ha hp => exact ⟨hp, .inr ⟨_, _, rfl, ha⟩⟩
  | _ => simp_all

/-- Settles O43: the three lemmas above, with each command as its term or the REG_WR that carries it. -/
theorem errorFlagsHaveTheirCauses : Obligations.ErrorFlagsHaveTheirCauses := by
  intro i s t h
  have he := exec_effect h
  simp only [← performs_start, ← performs_illegal]
  exact ⟨he.sets_lenErr, he.sets_cmdErr, he.sets_wrErr⟩

/-! ## One error flag at a time (R235) -/

/-- `raise` sets its own flag and no other. -/
theorem State.raise_sets_at_most_one (s : State) (f : ErrFlag) :
    ((s.raise f).lenErr && !s.lenErr).toNat + ((s.raise f).cmdErr && !s.cmdErr).toNat +
      ((s.raise f).wrErr && !s.wrErr).toNat ≤ 1 := by
  cases f <;> simp [Bool.toNat_le]

/-- Settles O45: an effect raises one flag, or accepts a START and can set only LEN_ERR, or sets none. -/
theorem atMostOneErrorFlagIsSet : Obligations.AtMostOneErrorFlagIsSet := by
  intro i s t h
  cases exec_effect h with
  | illegal | startBusy | lenBusy | byteBusy => exact s.raise_sets_at_most_one _
  | startTooLong => simp [Bool.toNat_le]
  | _ => simp

end Sys2Proof.Machine
end

section
/-! PROOFS. The statements of 70_reset_and_hazards.md: the reset event (R260), a START's own step (R265), and that in
every fair execution a job and a poll end (R271, R207, R80). -/

namespace Sys2Proof.Machine

/-! ## The reset event (R260) -/

/-- Settles O10: the memory is the draw in canonical form, and the other fields are the reset event's own. -/
theorem resetTurnPutsTheResetValues : Obligations.ResetTurnPutsTheResetValues :=
  fun s d _ hturns => ⟨Memory.ofDraw s.cfg.msgCap d.msg, step_reset hturns, Memory.wf_ofDraw _ _,
    Memory.within_ofDraw _ _, fun a ha => Memory.read_ofDraw _ _ a ha⟩

/-! ## A START's own step (R265) -/

/-- STATUS with the phase EXPAND, j = 0 and no flag set: BUSY and PHASE = 1 (R38). -/
theorem statusWord_of_started {s : State} (hphase : s.phase = .expand) (hj : s.j = 0) (hdone : s.done = false)
    (hlen : s.lenErr = false) (hcmd : s.cmdErr = false) (hwr : s.wrErr = false) : s.statusWord = 0x00000101 := by
  rw [State.statusWord, State.busy, hphase, hj, hdone, hlen, hcmd, hwr]
  rfl

/-- Settles O17: START clears DONE and LEN_ERR, and the other two flags are clear already. -/
theorem startIsBusyAtOnce : Obligations.StartIsBusyAtOnce :=
  fun _ hidle hlen hcmd hwr => ⟨_, (Effect.startJob (.inl rfl) hidle hlen).exec_eq,
    statusWord_of_started rfl rfl rfl rfl hcmd hwr⟩

/-! ## A step by the turn that is due (R57) -/

theorem step_of_core {s : State} (h : s.turnNow = .core) : step s = coreTurn { s with turns := s.turns.tail } := by
  simp only [step, nextTurn, h]

theorem step_of_host {s : State} (h : s.turnNow = .host) : step s = hostTurn { s with turns := s.turns.tail } := by
  simp only [step, nextTurn, h]

/-- A host turn on a poll whose condition does not hold changes nothing but the list of turns (R80). -/
theorem step_poll_wait {s : State} {mask val : Word} {lines : List HostLine} (hturn : s.turnNow = .host)
    (hline : s.program = .poll mask val :: lines) (hwait : s.statusWord &&& mask ≠ val) :
    step s = .next { s with turns := s.turns.tail } :=
  (step_of_host hturn).trans (hostTurn_poll_wait (s := { s with turns := s.turns.tail }) hline hwait)

/-- A host turn on a poll whose condition holds takes it off the program and keeps the read's result (R80). -/
theorem step_poll_done {s : State} {mask val : Word} {lines : List HostLine} (hturn : s.turnNow = .host)
    (hline : s.program = .poll mask val :: lines) (hdone : s.statusWord &&& mask = val) :
    step s = .next { s with
      turns := s.turns.tail, program := lines, results := s.results ++ [s.statusWord] } :=
  (step_of_host hturn).trans (hostTurn_poll_done (s := { s with turns := s.turns.tail }) hline hdone)

/-- What a record decodes to is no micro-operation, and CLEAR only as the write of 2 to CMD. -/
theorem decode_hosttxn_instr {x : HostTxn} {i : Instr} (h : decode (.hosttxn x) = .ok i) :
    (i ≠ .expand ∧ i ≠ .round ∧ i ≠ .feed) ∧ (Performs i .clear → i = .regWr cmdOffset 0x00000002) := by
  obtain ⟨-, -, rfl⟩ | ⟨-, -, rfl⟩ | ⟨-, rfl⟩ | ⟨-, rfl⟩ := decodeTxn_eq_ok.mp h <;>
    simp [performs_clear, cmdOffset]

/-- A host turn is one instruction's effect, after the line was taken off: that of its record, or the STATUS read of a
poll that is done. Where nothing happens it is NOP's. -/
theorem hostTurn_effect {s t : State} (h : hostTurn s = .next t) :
    ∃ lines i, Effect { s with program := lines } i t ∧
      (i = .nop ∨ i = .regRd statusOffset ∨ ∃ x, s.program = .txn x :: lines ∧ decode (.hosttxn x) = .ok i) := by
  unfold hostTurn at h
  split at h
  · cases h; exact ⟨_, .nop, .nop (.inl rfl), .inl rfl⟩
  · next x lines hline =>
    unfold performTxn at h
    split at h
    · next i hdecode => exact ⟨lines, i, exec_effect h, .inr (.inr ⟨x, hline, hdecode⟩)⟩
    · cases h
  · next lines _ =>
    split at h
    · exact ⟨lines, _, exec_effect h, .inr (.inl rfl)⟩
    · cases h; exact ⟨_, .nop, .nop (.inl rfl), .inl rfl⟩

/-- A step that does not abort a job is the core's, or an effect of the host that is neither a micro-operation's nor
CLEAR's. -/
theorem step_of_not_aborts {s t : State} (hno : ¬ s.Aborts) (h : step s = .next t) :
    (s.turnNow = .core ∧ coreTurn { s with turns := s.turns.tail } = .next t) ∨
      s.turnNow = .host ∧ ∃ ts lines i, Effect { s with turns := ts, program := lines } i t ∧
        i ≠ .expand ∧ i ≠ .round ∧ i ≠ .feed ∧ ¬ Performs i .clear := by
  cases hturn : s.turnNow with
  | core => exact .inl ⟨rfl, (step_of_core hturn).symm.trans h⟩
  | reset d => exact absurd (.inl ⟨d, hturn⟩) hno
  | host =>
    obtain ⟨lines, i, he, hi⟩ := hostTurn_effect ((step_of_host hturn).symm.trans h)
    refine .inr ⟨rfl, _, lines, i, he, ?_⟩
    obtain rfl | rfl | ⟨x, hline, hdecode⟩ := hi
    · simp [performs_clear]
    · simp [performs_clear]
    · obtain ⟨⟨hexpand, hround, hfeed⟩, hclear⟩ := decode_hosttxn_instr hdecode
      refine ⟨hexpand, hround, hfeed, fun hi => hno (.inr ⟨hturn, x, lines, hline, ?_⟩)⟩
      rw [hdecode, hclear hi]

/-! ## One step of a job that runs (R207, R208) -/

/-- The place in the job is made of the phase, blk and j alone. -/
theorem jobPosition_congr {s t : State} (hphase : t.phase = s.phase) (hj : t.j = s.j) (hblk : t.blk = s.blk) :
    t.jobPosition = s.jobPosition := by
  simp only [State.jobPosition, hphase, hj, hblk]

/-- A core step of a busy core moves its job (R207) and leaves the message (R65). -/
theorem coreTurn_moves_job {s t : State} (hinv : s.Inv) (hbusy : s.phase ≠ .idle) (h : coreTurn s = .next t) :
    s.MovesJobTo t ∧ t.len = s.len ∧ t.msg = s.msg :=
  ⟨(eachCoreStepMovesTheJobOnePlace s t hinv hbusy).1 h, inputsAreStableDuringAJob _ s t h hbusy⟩

/-- A step that does not abort the job leaves its message, and it is the core's, which moves the job, or the host's,
which leaves it in its place. -/
theorem step_moves_or_keeps_job {s t : State} (hinv : s.Inv) (hbusy : s.phase ≠ .idle) (hno : ¬ s.Aborts)
    (h : step s = .next t) :
    (t.len = s.len ∧ t.msg = s.msg) ∧
      (s.turnNow = .core ∧ s.MovesJobTo t ∨
        s.turnNow = .host ∧ t.phase = s.phase ∧ t.jobPosition = s.jobPosition) := by
  obtain ⟨hturn, hcore⟩ | ⟨hturn, ts, lines, i, he, hexpand, hround, hfeed, hclear⟩ := step_of_not_aborts hno h
  · obtain ⟨hmoves, hinputs⟩ := coreTurn_moves_job (s := { s with turns := s.turns.tail }) { hinv with } hbusy hcore
    exact ⟨hinputs, .inl ⟨hturn, hmoves⟩⟩
  · obtain ⟨hphase, hj, hblk, -⟩ := he.job_eq hbusy hexpand hround hfeed hclear
    have hinputs := inputsAreStableDuringAJob i { s with turns := ts, program := lines } t he.exec_eq hbusy
    exact ⟨hinputs, .inr ⟨hturn, hphase, jobPosition_congr hphase hj hblk⟩⟩

/-! ## What holds all along an execution -/

namespace Execution

variable {x : Execution}

theorem before_inv (hinv : (x.state 0).Inv) (n : Nat) : (x.before n).Inv :=
  have hn : (x.state n).Inv := x.keeps (fun _ _ h => { h with }) everyStepKeepsTheInvariant hinv n
  { hn with }

theorem before_onCourse (hinv : (x.state 0).Inv) (hcourse : (x.state 0).OnCourse) (n : Nat) : (x.before n).OnCourse :=
  have hn : (x.state n).Inv ∧ (x.state n).OnCourse :=
    x.keeps (P := fun s => s.Inv ∧ s.OnCourse) (fun _ _ h => ⟨{ h.1 with }, { h.2 with }⟩)
      (fun s t h hst => ⟨everyStepKeepsTheInvariant s t h.1 hst, everyStepKeepsTheJobOnCourse s t h.1 h.2 hst⟩)
      ⟨hinv, hcourse⟩ n
  { hn.2 with }

theorem cfg_eq (n : Nat) : (x.state n).cfg = (x.state 0).cfg :=
  x.keeps (P := fun s => s.cfg = (x.state 0).cfg) (fun _ _ h => h) (fun _ _ h hst => (step_cfg_eq hst).trans h) rfl n

theorem coreAt_iff {n : Nat} : x.coreAt n = true ↔ (x.before n).turnNow = .core := beq_iff_eq

theorem coreSteps_mono {m n : Nat} (h : m ≤ n) : x.coreSteps m ≤ x.coreSteps n :=
  monotone_nat_of_le_succ (fun k => by rw [x.coreSteps_succ]; exact Nat.le_add_right _ _) h

/-- Core steps that come infinitely often exceed every bound. -/
theorem exists_le_coreSteps (h : ∀ k, ∃ m, k ≤ m ∧ x.coreAt m = true) (b : Nat) : ∃ n, b ≤ x.coreSteps n := by
  induction b with
  | zero => exact ⟨0, Nat.zero_le _⟩
  | succ b ih =>
    obtain ⟨n, hn⟩ := ih
    obtain ⟨m, hnm, hm⟩ := h n
    refine ⟨m + 1, ?_⟩
    rw [x.coreSteps_succ, if_pos hm]
    exact Nat.succ_le_succ (hn.trans (coreSteps_mono hnm))

/-! ## A job ends (R271, R207, R176) -/

/-- The job of the first state still runs before step `n`, on the same message, as many places on as core steps were
taken. -/
structure JobRuns (x : Execution) (n : Nat) : Prop where
  busy : (x.state n).phase ≠ .idle
  len : (x.state n).len = (x.state 0).len
  msg : (x.state n).msg = (x.state 0).msg
  position : (x.state 0).jobPosition + x.coreSteps n = (x.state n).jobPosition

/-- The job of the first state has ended before step `n` with DONE, and the hash of its message is in CV. -/
structure JobEnds (x : Execution) (n : Nat) : Prop where
  idle : (x.state n).phase = .idle
  done : (x.state n).done = true
  len : (x.state n).len = (x.state 0).len
  msg : (x.state n).msg = (x.state 0).msg
  cv : (x.state n).cv = messageHash (x.state 0).cfg (x.state 0).msg (x.state 0).len.toNat
  position : (x.state 0).jobPosition + x.coreSteps n = 66 * blockCount (x.state 0).len.toNat

section
variable (hinv : (x.state 0).Inv) (hcourse : (x.state 0).OnCourse) (hno : ∀ n, ¬ (x.before n).Aborts)
include hinv

/-- A running job has not come to its last place yet. -/
theorem JobRuns.coreSteps_lt {n : Nat} (h : x.JobRuns n) : x.coreSteps n < 66 * blockCount (x.state 0).len.toNat := by
  obtain ⟨t, -, hmoves⟩ := (before_inv hinv n).exists_coreStep h.busy
  have hlast : (x.state n).jobPosition + 1 ≤ 66 * blockCount (x.state n).len.toNat :=
    hmoves.elim (fun hm => hm.1.le) (fun hm => hm.1.le)
  have hposition := h.position
  rw [h.len] at hlast
  omega

include hcourse hno

/-- A job that runs goes on running, or the step is the core's last and ends it. -/
theorem JobRuns.next {n : Nat} (h : x.JobRuns n) : x.JobRuns (n + 1) ∨ x.JobEnds (n + 1) := by
  have hstep := x.step_before n
  obtain ⟨⟨hlen, hmsg⟩, hjob⟩ := step_moves_or_keeps_job (before_inv hinv n) h.busy (hno n) hstep
  have hlen0 : (x.state (n + 1)).len = (x.state 0).len := hlen.trans h.len
  have hmsg0 : (x.state (n + 1)).msg = (x.state 0).msg := hmsg.trans h.msg
  have hsteps := x.coreSteps_succ n
  have hposition := h.position
  obtain ⟨hcore, ⟨-, hbusy, hplace⟩ | ⟨hlast, hidle, hdone⟩⟩ | ⟨hhost, hphase, hplace⟩ := hjob
  · rw [if_pos (coreAt_iff.mpr hcore)] at hsteps
    have hplace' : (x.state (n + 1)).jobPosition = (x.state n).jobPosition + 1 := hplace
    exact .inl ⟨hbusy, hlen0, hmsg0, by omega⟩
  · rw [if_pos (coreAt_iff.mpr hcore)] at hsteps
    have hlast' : (x.state n).jobPosition + 1 = 66 * blockCount (x.state n).len.toNat := hlast
    have hnotDone : (x.before n).done = false := eq_false_of_ne_true ((before_inv hinv n).not_done h.busy)
    obtain ⟨hcv, -⟩ :=
      doneMeansTheMessageHash _ _ (before_inv hinv n) (before_onCourse hinv hcourse n) hstep hnotDone hdone
    rw [hlen0, hmsg0, cfg_eq] at hcv
    rw [h.len] at hlast'
    exact .inr ⟨hidle, hdone, hlen0, hmsg0, hcv, by omega⟩
  · rw [if_neg (by simp [coreAt_iff, hhost])] at hsteps
    have hplace' : (x.state (n + 1)).jobPosition = (x.state n).jobPosition := hplace
    exact .inl ⟨fun hidle => h.busy (hphase.symm.trans hidle), hlen0, hmsg0, by omega⟩

/-- As long as the core has been busy, the job of the first state runs. -/
theorem jobRuns_of_busy {n : Nat} (hbusy : ∀ m, m ≤ n → (x.state m).phase ≠ .idle) : x.JobRuns n := by
  induction n with
  | zero => exact ⟨hbusy 0 le_rfl, rfl, rfl, rfl⟩
  | succ n ih =>
    have hn : x.JobRuns n := ih fun m hm => hbusy m (by omega)
    exact (hn.next hinv hcourse hno).resolve_right fun hends => hbusy (n + 1) le_rfl hends.idle

/-- Under fairness the core does not stay busy for ever: its steps would exceed the job's last place. -/
theorem exists_idle (hfair : x.Fair) : ∃ n, (x.state n).phase = .idle := by
  by_contra! hbusy
  obtain ⟨n, hn⟩ := exists_le_coreSteps (hfair 0 fun m _ => hbusy m) (66 * blockCount (x.state 0).len.toNat)
  have hruns : x.JobRuns n := jobRuns_of_busy hinv hcourse hno fun m _ => hbusy m
  exact absurd (hruns.coreSteps_lt hinv) (Nat.not_lt.mpr hn)

/-- The first idle state of a busy start is where its job ends. -/
theorem exists_jobEnds (hfair : x.Fair) (hbusy : (x.state 0).phase ≠ .idle) :
    ∃ n, (∀ m, m < n → (x.state m).phase ≠ .idle) ∧ x.JobEnds n := by
  have hidle := exists_idle hinv hcourse hno hfair
  refine ⟨Nat.find hidle, fun m hm => Nat.find_min hidle hm, ?_⟩
  cases hn : Nat.find hidle with
  | zero => exact absurd (hn ▸ Nat.find_spec hidle) hbusy
  | succ n =>
    have hruns : x.JobRuns n := jobRuns_of_busy hinv hcourse hno fun m hm => Nat.find_min hidle (by omega)
    exact (hruns.next hinv hcourse hno).resolve_left fun h => h.busy (hn ▸ Nat.find_spec hidle)

end

/-! ## A poll ends (R80, R271) -/

/-- The host's next line before step `n` is the poll. -/
def PollNext (x : Execution) (mask val : Word) (n : Nat) : Prop :=
  ∃ lines, (x.state n).program = .poll mask val :: lines

/-- Step `n` is the host's, and the STATUS it finds meets the condition. -/
def PollMatches (x : Execution) (mask val : Word) (n : Nat) : Prop :=
  (x.before n).turnNow = .host ∧ (x.state n).statusWord &&& mask = val

/-- What the outside world adds comes behind the poll. -/
theorem PollNext.before {mask val : Word} {n : Nat} (h : x.PollNext mask val n) :
    ∃ lines, (x.before n).program = .poll mask val :: lines := by
  obtain ⟨lines, hlines⟩ := h
  exact ⟨lines ++ (x.supply n).program, by simp [Execution.before, hlines]⟩

section
variable {mask val : Word} (hreset : ∀ n d, (x.before n).turnNow ≠ .reset d)
include hreset

/-- While the poll is the next line the host writes nothing, CLEAR among it. -/
theorem PollNext.not_aborts {n : Nat} (h : x.PollNext mask val n) : ¬ (x.before n).Aborts := by
  obtain ⟨lines, hlines⟩ := h.before
  rintro (⟨d, hd⟩ | ⟨-, t, lines', hline, -⟩)
  · exact hreset n d hd
  · simp [hlines] at hline

/-- A poll stays the next line until it matches. -/
theorem PollNext.succ {n : Nat} (h : x.PollNext mask val n) (hwait : ¬ x.PollMatches mask val n) :
    x.PollNext mask val (n + 1) := by
  obtain ⟨lines, hlines⟩ := h.before
  have hstep := x.step_before n
  refine ⟨lines, ?_⟩
  cases hturn : (x.before n).turnNow with
  | core =>
    rw [step_of_core hturn] at hstep
    exact (exec_effect hstep).program_eq.trans hlines
  | host =>
    have hkept := step_poll_wait hturn hlines fun hmatch => hwait ⟨hturn, hmatch⟩
    rw [Host.Outcome.next.inj (hstep.symm.trans hkept)]
    exact hlines
  | reset d => exact absurd hturn (hreset n d)

/-- A poll that is the first line stays the next one as long as it has not matched. -/
theorem PollNext.of_not_matches (h : x.PollNext mask val 0) {n : Nat}
    (hwait : ∀ m, m < n → ¬ x.PollMatches mask val m) : x.PollNext mask val n := by
  induction n with
  | zero => exact h
  | succ n ih => exact (ih fun m hm => hwait m (by omega)).succ hreset (hwait n (by omega))

/-- In IDLE, with no reset, the turn is the host's, so a poll whose condition holds there matches. -/
theorem pollMatches_of_idle {n : Nat} (hidle : (x.state n).phase = .idle)
    (hcond : (x.state n).statusWord &&& mask = val) : x.PollMatches mask val n := by
  refine ⟨?_, hcond⟩
  cases hturn : (x.before n).turnNow with
  | core => exact absurd hturn (x.not_coreAt_of_idle hidle)
  | host => rfl
  | reset d => exact absurd hturn (hreset n d)

end

/-- A poll that matches is taken off the program, and that read's result is kept. -/
theorem PollMatches.next {mask val : Word} {n : Nat} {rest : List HostLine} (h : x.PollMatches mask val n)
    (hline : (x.before n).program = .poll mask val :: rest) :
    (x.state (n + 1)).program = rest ∧
      (x.state (n + 1)).results = (x.state n).results ++ [(x.state n).statusWord] := by
  obtain ⟨hhost, hmatch⟩ := h
  rw [Host.Outcome.next.inj ((x.step_before n).symm.trans (step_poll_done hhost hline hmatch))]
  exact ⟨rfl, rfl⟩

/-- Without aborts there is a first idle state, and there DONE is set if the start is busy or has it set. -/
theorem exists_first_idle (hinv : (x.state 0).Inv) (hcourse : (x.state 0).OnCourse)
    (hno : ∀ n, ¬ (x.before n).Aborts) (hfair : x.Fair) :
    ∃ n, (∀ m, m < n → (x.state m).phase ≠ .idle) ∧ (x.state n).phase = .idle ∧
      ((x.state 0).phase ≠ .idle ∨ (x.state 0).done = true → (x.state n).done = true) := by
  by_cases hidle : (x.state 0).phase = .idle
  · exact ⟨0, nofun, hidle, fun h => h.resolve_left (not_not.mpr hidle)⟩
  · obtain ⟨n, hfirst, hends⟩ := exists_jobEnds hinv hcourse hno hfair hidle
    exact ⟨n, hfirst, hends.idle, fun _ => hends.done⟩

end Execution

/-- Masking with 2^n − 1 keeps a word's low n bits. -/
theorem and_ofNat_two_pow_sub_one (w : Word) (n : Nat) :
    w &&& BitVec.ofNat 32 (2 ^ n - 1) = (w.extractLsb' 0 n).setWidth 32 := by
  refine BitVec.eq_of_getLsbD_eq fun i hi => ?_
  rw [BitVec.getLsbD_and, BitVec.getLsbD_ofNat, Nat.testBit_two_pow_sub_one]
  simp [hi, Bool.and_comm]

/-- The condition of `wait` holds in IDLE (R80). -/
theorem statusWord_and_wait {s : State} (hidle : s.phase = .idle) : s.statusWord &&& 0x00000001 = 0x00000000 := by
  have hbits : s.statusWord.extractLsb' 0 1 = 0 := extractLsb'_eq_of_getLsbD fun i hi => by
    obtain rfl : i = 0 := by omega
    rw [getLsbD_statusWord s (by decide)]
    simp [State.busy_eq, hidle]
  exact (and_ofNat_two_pow_sub_one _ 1).trans (by rw [hbits]; rfl)

/-- The condition of `poll 0x00000003, 0x00000002` holds in IDLE with DONE (R80). -/
theorem statusWord_and_done {s : State} (hidle : s.phase = .idle) (hdone : s.done = true) :
    s.statusWord &&& 0x00000003 = 0x00000002 := by
  have hbits : s.statusWord.extractLsb' 0 2 = 2 := extractLsb'_eq_of_getLsbD fun i hi => by
    obtain rfl | rfl : i = 0 ∨ i = 1 := by omega
    · rw [getLsbD_statusWord s (by decide)]
      simp [State.busy_eq, hidle]
    · rw [getLsbD_statusWord s (by decide)]
      simp [hdone]
  exact (and_ofNat_two_pow_sub_one _ 2).trans (by rw [hbits]; rfl)

/-- Settles O59: fairness brings the running job to its end. A poll that never matched would stay the next line for
ever, so nothing would abort the job, and at the first idle state the host's turn would find the condition true. -/
theorem fairJobsAndPollsEnd : Obligations.FairJobsAndPollsEnd := by
  intro x hfair hinv hcourse
  refine ⟨fun hbusy hno => ?job, fun mask val lines hline hreset hkind => ?poll⟩
  case job =>
    obtain ⟨n, hfirst, hends⟩ := Execution.exists_jobEnds hinv hcourse hno hfair hbusy
    exact ⟨n, hfirst, hends.idle, hends.done, hends.len, hends.msg, hends.cv, hends.position⟩
  case poll =>
    classical
    have hnext : x.PollNext mask val 0 := ⟨lines, hline⟩
    have hmatches : ∃ n, x.PollMatches mask val n := by
      by_contra! hnever
      have hno : ∀ n, ¬ (x.before n).Aborts := fun n =>
        (hnext.of_not_matches hreset fun m _ => hnever m).not_aborts hreset
      obtain ⟨n, hfirst, hidle, hdone⟩ := Execution.exists_first_idle hinv hcourse hno hfair
      refine hnever n (Execution.pollMatches_of_idle hreset hidle ?_)
      obtain ⟨rfl, rfl⟩ | ⟨rfl, rfl, hstarted⟩ | hcond := hkind
      · exact statusWord_and_wait hidle
      · exact statusWord_and_done hidle (hdone hstarted)
      · exact hcond n hfirst hidle
    have hpending : ∀ m, m ≤ Nat.find hmatches → x.PollNext mask val m := fun m hm =>
      hnext.of_not_matches hreset fun k hk => Nat.find_min hmatches (by omega)
    have hmatch := Nat.find_spec hmatches
    obtain ⟨rest, hrest⟩ := (hpending _ le_rfl).before
    obtain ⟨hprogram, hresults⟩ := hmatch.next hrest
    exact ⟨_, rest, hmatch.1, hrest, hmatch.2, hprogram, hresults, hpending⟩

end Sys2Proof.Machine
end
